-- ==== Sys2Proof/Word.lean ====
section
/-! DEFINITION. The word and byte types (00_scope.md R8, R9). `v.toNat` is the spec's `u32(v)`, `v.toInt` its `s32(v)`,
and arithmetic on `Word` is the spec's `wrap32`. -/

namespace Sys2Proof

/-- A register, a command word or a table entry: 32 bits, bit 31 the most significant (R8). -/
abbrev Word := BitVec 32

/-- A byte of data memory: a pixel, a plane byte or a mask byte (R8, R9). -/
abbrev Byte := BitVec 8

end Sys2Proof
end

