-- ==== Sys2Proof/Config.lean ====
section
/-! DEFINITION. What is fixed for one block (00_scope.md R6, R7) and the one free value the spec leaves (R291, U11). -/

namespace Sys2Proof

/-- A chroma plane of the source (40_deint.md R121). -/
inductive Plane where
  | u
  | v
  deriving DecidableEq, Repr

/-- The parameters that 00_scope.md R6 marks OPEN for the hardware or for a model. They never change while the machine
runs. Log entry 1. -/
structure Config where
  /-- `MEM_SIZE`: data memory has the addresses `0 .. memSize - 1`. -/
  memSize : Nat
  /-- `CHROMA_FIRST`: the plane that receives the first byte of each chroma pair. -/
  chromaFirst : Plane
  /-- `REG_BASE`: address of the register window in the host's address space. -/
  regBase : Word
  deriving DecidableEq, Repr

namespace Config

/-- The range of `MEM_SIZE` that R6 gives: `1 <= MEM_SIZE <= 2^32`. -/
def wf (c : Config) : Bool := decide (1 ≤ c.memSize) && decide (c.memSize ≤ 2 ^ 32)

/-- The configuration of `State.reset`. `CHROMA_FIRST = U` is R6's value for this hardware. DESIGN CHOICE (log entry 1):
`MEM_SIZE` is the one of 95_test_vectors.md, and `REG_BASE` is 0; R6 leaves both OPEN. -/
def reference : Config := { memSize := 0x10000, chromaFirst := .u, regBase := 0 }

/-- `ID_VALUE`, the ASCII bytes `S D P 1` (10_state.md R31). -/
def idValue : Word := 0x53445031

/-- `MAX_DIM` of this hardware (R6, 10_state.md R23). -/
def maxDim : Nat := 16384

/-- `H`, the half-width of the binarizer's neighbourhood (R6). -/
def halfWidth : Nat := 7

/-- `BLOCK_SIZE * BLOCK_SIZE`, the divisor of the block mean (R7, 42_athr.md R164). -/
def blockArea : Nat := 225

/-- `DELTA_RESET` (R6, 10_state.md R45). -/
def deltaReset : Word := 5

/-- FREE VALUE (log entry 5): the byte that address `addr` of data memory holds, before anything wrote it, after the
`epoch`-th removal of power (70_reset_and_hazards.md R291: "every byte of data memory holds an unspecified value: a
model must not assume zero"). -/
opaque powerUpByte (epoch addr : Nat) : Byte

end Config

end Sys2Proof
end

