-- ==== Sys2Proof/Syntax.lean ====
section
/-! DEFINITION. The instructions: one constructor per row of spec/opcode_table.json. -/

namespace Sys2Proof

/-- The six commands (30_encoding.md R92) and the two host accesses (R96). A command word carries no operand (R90): its
operands are the operand registers. -/
inductive Instr where
  /-- `NOP`, 44_system.md R210. -/
  | nop
  /-- `DEINT`, 40_deint.md R121. -/
  | deint
  /-- `INTEG`, 41_integ.md R142. -/
  | integ
  /-- `ATHR`, 42_athr.md R166. -/
  | athr
  /-- `ADAPT`, 42_athr.md R170. -/
  | adapt
  /-- `RANGE`, 43_range.md R191. -/
  | range
  /-- `WR off, val`, 44_system.md R211. `off` is the 8-bit offset field of format H. -/
  | wr (off : BitVec 8) (val : Word)
  /-- `RD off`, 44_system.md R212. -/
  | rd (off : BitVec 8)
  deriving DecidableEq, Repr

end Sys2Proof
end

