-- ==== Sys2Proof/Decode.lean ====
section
/-! DEFINITION. Decoding and encoding (30_encoding.md R90 to R97), and which `WR` or `RD` an access on the host's bus is
(44_system.md R213). Nothing here reads the state: the block fetches nothing from memory (10_state.md R26). -/

namespace Sys2Proof

/-- The six values of `OPCODE` that R92 gives a command. -/
inductive Opcode where
  | nop
  | deint
  | integ
  | athr
  | adapt
  | range
  deriving DecidableEq, Repr

/-- One statement of a host program in its encoding: a format C command word, which the host writes to `CMD` (R90, R97),
or a format H transaction, bit 40 the direction, bits 39:32 the offset, bits 31:0 the data (R96). -/
inductive HostWord where
  | command (w : Word)
  | transaction (t : BitVec 41)
  deriving DecidableEq, Repr

/-- An access on the host's bus as the bus carries it: any address, any width, any number of beats (44_system.md R213). -/
structure BusAccess where
  write : Bool
  addr : Word
  /-- bytes per beat: 4 is the only width with a meaning -/
  bytes : Nat
  /-- 1 unless the access is a burst. The beats of a burst are at rising addresses: log entry 17. -/
  beats : Nat
  data : Word
  deriving DecidableEq, Repr

/-- Why the bits are no instruction. -/
inductive DecodeReject where
  /-- A command word that R93 calls illegal. The block rejects it with `E_OPCODE`; it is no stop. -/
  | illegalCommand (w : Word)
  /-- An access to the window that is not one aligned 32-bit access (44_system.md R213): it has no meaning. -/
  | windowAccessNoMeaning
  /-- An access outside the window, which "does not reach the block" (44_system.md R213). -/
  | outsideWindow
  deriving DecidableEq, Repr

/-- The decoder of R94: "check `w[31:8] = 0`, then look `w[7:0]` up in rule R92". -/
def opcodeOf (w : Word) : Option Opcode :=
  if w.extractLsb' 8 24 = 0 then
    match (w.extractLsb' 0 8).toNat with
    | 0x00 => some .nop
    | 0x01 => some .deint
    | 0x02 => some .integ
    | 0x03 => some .athr
    | 0x04 => some .adapt
    | 0x05 => some .range
    | _ => none
  else none

/-- The instruction an opcode stands for (R92). -/
def Opcode.instr : Opcode → Instr
  | .nop => .nop
  | .deint => .deint
  | .integ => .integ
  | .athr => .athr
  | .adapt => .adapt
  | .range => .range

/-- Format H's fields (R96). -/
def transactionIsWrite (t : BitVec 41) : Bool := t.getLsbD 40
def transactionOffset (t : BitVec 41) : BitVec 8 := t.extractLsb' 32 8
def transactionData (t : BitVec 41) : Word := t.extractLsb' 0 32

/-- A host access to offset `off` of the window (R96, 44_system.md R213). The data bits of a read have no meaning (R96). -/
def accessAt (isWrite : Bool) (off : BitVec 8) (data : Word) : Except DecodeReject Instr :=
  if off.getLsbD 7 then .error .outsideWindow
  else if off.extractLsb' 0 2 = 0 then .ok (if isWrite then .wr off data else .rd off)
  else .error .windowAccessNoMeaning

/-- The decoder, total on both formats. -/
def decode : HostWord → Except DecodeReject Instr
  | .command w =>
    match opcodeOf w with
    | some op => .ok op.instr
    | none => .error (.illegalCommand w)
  | .transaction t => accessAt (transactionIsWrite t) (transactionOffset t) (transactionData t)

/-- A bus access by address: the window is the 128 bytes from `REG_BASE` (10_state.md R30), computed over the integers.
An access none of whose bytes lies in the window does not reach the block; any other one that is not a single aligned
32-bit access has no meaning (44_system.md R213, log entries 6 and 7). DESIGN CHOICE (log entry 17): R213 names no burst
kind, and the bytes of a burst are taken as the rising run of `bytes * beats` bytes from its address. -/
def decodeAccess (cfg : Config) (a : BusAccess) : Except DecodeReject Instr :=
  let base := cfg.regBase.toNat
  if a.addr.toNat + a.bytes * a.beats ≤ base ∨ base + 0x80 ≤ a.addr.toNat then .error .outsideWindow
  else if a.bytes = 4 ∧ a.beats = 1 ∧ base ≤ a.addr.toNat then
    accessAt a.write (BitVec.ofNat 8 (a.addr.toNat - base)) a.data
  else .error .windowAccessNoMeaning

/-- The encoder, from the tables of R92 and R96. The data bits of an `RD` are written as zero. -/
def encode : Instr → HostWord
  | .nop => .command 0x00000000
  | .deint => .command 0x00000001
  | .integ => .command 0x00000002
  | .athr => .command 0x00000003
  | .adapt => .command 0x00000004
  | .range => .command 0x00000005
  | .wr off val => .transaction (1#1 ++ off ++ val)
  | .rd off => .transaction (0#1 ++ off ++ 0#32)

/-- A table word as spec/opcode_table.json numbers it: 32 bits are format C, more are format H (41 bits, 48 in whole
bytes). -/
def tableHostWord (nbits w : Nat) : HostWord :=
  if nbits ≤ 32 then .command (BitVec.ofNat 32 w) else .transaction (BitVec.ofNat 41 w)

/-- Whether the word fits its format: no bit is set above bit 31, or above bit 40. -/
def tableWordFits (nbits w : Nat) : Bool := if nbits ≤ 32 then decide (w < 2 ^ 32) else decide (w < 2 ^ 41)

/-- The instruction the decoder reads from a table word, none where it refuses. -/
def decodeTableWord (nbits w : Nat) : Option Instr :=
  if tableWordFits nbits w then
    match decode (tableHostWord nbits w) with
    | .ok i => some i
    | .error _ => none
  else none

end Sys2Proof
end

