-- ==== Sys2Proof/Machine/State.lean ====
section
/-! DEFINITION. The state, the reasons a step can stop, and the state after reset (10_state.md, 00_scope.md R14). -/

namespace Sys2Proof.Machine

/-- `STATUS[2:0]` (10_state.md R33). Bits 31:3 read as zero and have no storage. Log entry 16. -/
structure Status where
  done : Bool
  err : Bool
  ovf : Bool
  deriving DecidableEq, Repr

/-- The six command errors (60_exceptions.md R252). Code 7 does not exist. -/
inductive CmdError where
  | opcode
  | geom
  | stride
  | align
  | bus
  | overlap
  deriving DecidableEq, Repr

/-- Data memory: the bytes that something has written, addresses strictly rising. An unlisted address has no written
byte (log entry 5). -/
abbrev Memory := List Host.Cell

/-- The two widths of a data-memory access (20_memory.md R73). -/
inductive Width where
  | byte
  | word
  deriving DecidableEq, Repr

/-- One step of the host (00_scope.md R13, 45_host_pipeline.md R238). The model's own type: log entry 2. -/
inductive HostStep where
  /-- A statement of a host program in its encoding (30_encoding.md R97). -/
  | word (hw : HostWord)
  /-- An access on the host's bus, by address (44_system.md R213). -/
  | bus (a : BusAccess)
  /-- A host read of data memory (20_memory.md R60, R76). -/
  | memRead (addr : Word) (width : Width)
  /-- A host write of data memory (20_memory.md R60, R76). A byte write stores `val[7:0]`. -/
  | memWrite (addr : Word) (width : Width) (val : Word)
  /-- The hardware input `rst` (70_reset_and_hazards.md R290). -/
  | rst
  /-- Power is removed and comes back (60_exceptions.md R270, 70_reset_and_hazards.md R291). -/
  | powerCycle
  deriving DecidableEq, Repr

/-- The machine. -/
structure State where
  /-- The parameters of this block, fixed while it runs (00_scope.md R6). Log entry 1. -/
  cfg : Config
  /-- The operand registers `x0 .. x15` (10_state.md R20, R21). -/
  x : Vector Word 16
  /-- `CMD` (10_state.md R32). -/
  cmd : Word
  /-- `STATUS` (10_state.md R33). -/
  status : Status
  /-- `ECAUSE` (10_state.md R34); `none` is code 0. Log entry 16. -/
  ecause : Option CmdError
  /-- `EVAL` (10_state.md R35). -/
  eval : Word
  /-- The data memory (10_state.md R40). -/
  mem : Memory
  /-- The model's own field: how often power was removed, for the free value `Config.powerUpByte`. Log entry 5. -/
  epoch : Nat
  /-- The model's own field: the steps the host is going to take, the next one first. Log entry 2. -/
  pending : List HostStep
  /-- The model's own field: the word that the host's last read returned. Log entry 4. -/
  readData : Option Word
  deriving DecidableEq, Repr

/-- Why a step can fault. -/
inductive Fault where
  /-- Raised by a host step that accesses a data-memory address at or above `MEM_SIZE`, which 20_memory.md R60 says does
  not exist. Safe: the model stops. No command raises it. Log entry 10. -/
  | hostAddressAbsent
  deriving DecidableEq, Repr

/-- Why a step can be refused. -/
inductive Refusal where
  /-- Raised by an arm of `exec` that has no meaning yet. Safe. -/
  | notModelled (mnemonic : String)
  /-- Raised by a host access to the register window that is not one aligned 32-bit access: 44_system.md R213 gives it no
  meaning and 93_implementation_defined.md U8 says to refuse it. Safe. Log entry 7. -/
  | windowAccessNoMeaning
  deriving DecidableEq, Repr

/-- The operand registers after reset: `DELTA` is 5, every other is 0 (10_state.md R45). -/
def resetRegisters : Vector Word 16 :=
  #v[0, 0, 0, 0, 0, 0, 0, 0, 0, 0, 0, Config.deltaReset, 0, 0, 0, 0]

/-- The machine right after reset (10_state.md R45, 70_reset_and_hazards.md R290, R291): nothing is written in memory,
and the host has taken no step. The model's own fields are DESIGN CHOICES, log entries 1, 2, 4 and 5. -/
def State.reset : State :=
  { cfg := Config.reference
    x := resetRegisters
    cmd := 0
    status := { done := false, err := false, ovf := false }
    ecause := none
    eval := 0
    mem := []
    epoch := 0
    pending := []
    readData := none }

end Sys2Proof.Machine
end

