-- ==== Sys2Proof/Machine/Flags.lean ====
section
/-! DEFINITION. The three `STATUS` bits (10_state.md R33, R38): how each is set, cleared and read. -/

namespace Sys2Proof.Machine

/-- `STATUS[2:0]`: bit 2 `OVF`, bit 1 `ERR`, bit 0 `DONE` (10_state.md R33). -/
def Status.bits (f : Status) : BitVec 3 := BitVec.ofBool f.ovf ++ BitVec.ofBool f.err ++ BitVec.ofBool f.done

/-- The word a host read of `STATUS` returns: bits 31:3 read as zero (10_state.md R33, 44_system.md R212). -/
def Status.word (f : Status) : Word := f.bits.setWidth 32

/-- Step 1 of a command issue: `DONE <- 0`, `ERR <- 0`, `OVF` unchanged (60_exceptions.md R250). -/
def Status.issued (f : Status) : Status := { f with done := false, err := false }

/-- Step 4 of a command issue: `DONE <- 1` (60_exceptions.md R250). -/
def Status.completed (f : Status) : Status := { f with done := true }

/-- `raise`: `ERR <- 1` (60_exceptions.md R251). -/
def Status.rejected (f : Status) : Status := { f with err := true }

/-- A host write of `v` to `STATUS`: `STATUS[2:0] <- STATUS[2:0] AND NOT v[2:0]` (10_state.md R33, 44_system.md R211). -/
def Status.clearedBy (v : Word) (f : Status) : Status :=
  { done := f.done && !v.getLsbD 0
    err := f.err && !v.getLsbD 1
    ovf := f.ovf && !v.getLsbD 2 }

/-- The sticky overflow flag of the accumulator: set when the total pixel sum exceeds `2^31-1`, otherwise left
(41_integ.md R146). -/
def Status.notedTotal (total : Nat) (f : Status) : Status := { f with ovf := f.ovf || decide (2 ^ 31 - 1 < total) }

end Sys2Proof.Machine
end

