-- ==== Sys2Proof/Machine/Ops.lean ====
section
/-! DEFINITION. The named operations over memory and registers, and the issue, rejection and completion of a command
(20_memory.md R64, R66, R72; 60_exceptions.md R250, R251, R258). -/

namespace Sys2Proof.Machine

/-! ### Data memory -/

/-- The byte written at an address, `none` where nothing has written. -/
def Memory.get? : Memory → Nat → Option Byte
  | [], _ => none
  | (k, b) :: m, a => if k = a then some b else Memory.get? m a

/-- Consecutive cells from address `a`. -/
def Memory.cells : Nat → List Byte → Memory
  | _, [] => []
  | a, b :: bs => (a, b) :: Memory.cells (a + 1) bs

/-- The bytes `bs` written at the addresses `a, a+1, ..`. -/
def Memory.writeRun (m : Memory) (a : Nat) (bs : List Byte) : Memory :=
  m.filter (fun c => decide (c.1 < a)) ++ Memory.cells a bs ++ m.filter (fun c => decide (a + bs.length ≤ c.1))

/-- The rows of a buffer written from address `a` on, each row `stride` bytes after the one before (20_memory.md R66). -/
def Memory.writeRows (m : Memory) (a stride : Nat) : List (List Byte) → Memory
  | [] => m
  | row :: rows => Memory.writeRows (m.writeRun a row) (a + stride) stride rows

/-- The canonical form: addresses strictly rising. An unlisted address has no written byte, so no entry can equal what an
unlisted address reads as. -/
def Memory.wf (m : Memory) : Bool := decide (m.Pairwise fun c d => c.1 < d.1)

/-- The four bytes of a word, lowest address first: little-endian (20_memory.md R64). -/
def leBytes (v : Word) : List Byte := [v.extractLsb' 0 8, v.extractLsb' 8 8, v.extractLsb' 16 8, v.extractLsb' 24 8]

/-- A word from its four bytes, `b0` the one at the lowest address (20_memory.md R64). -/
def ofLeBytes (b0 b1 b2 b3 : Byte) : Word := b3 ++ b2 ++ b1 ++ b0

/-- `MemRead(a, 1)` (00_scope.md R11). A byte that nothing has written is the free value of log entry 5. -/
def State.byte (s : State) (a : Nat) : Byte := (s.mem.get? a).getD (Config.powerUpByte s.epoch a)

/-- `MemRead(a, 4)` (00_scope.md R11, 20_memory.md R64). -/
def State.word (s : State) (a : Nat) : Word := ofLeBytes (s.byte a) (s.byte (a + 1)) (s.byte (a + 2)) (s.byte (a + 3))

/-! ### Updates of one field -/

def State.setMem (s : State) (m : Memory) : State := { s with mem := m }
def State.setStatus (s : State) (f : Status) : State := { s with status := f }
def State.setReadData (s : State) (w : Word) : State := { s with readData := some w }
def State.setPending (s : State) (p : List HostStep) : State := { s with pending := p }

/-- `x[i] <- v` (00_scope.md R11). No register is hardwired (10_state.md R20). -/
def State.setReg (s : State) (i : Fin 16) (v : Word) : State := { s with x := s.x.set i v }

/-- `MemWrite` of consecutive bytes from `a` (00_scope.md R11). -/
def State.writeBytes (s : State) (a : Nat) (bs : List Byte) : State := s.setMem (s.mem.writeRun a bs)

/-! ### Command issue: the exception mechanism of this hardware -/

/-- `ECAUSE` codes (60_exceptions.md R252). -/
def CmdError.code : CmdError → BitVec 3
  | .opcode => 1
  | .geom => 2
  | .stride => 3
  | .align => 4
  | .bus => 5
  | .overlap => 6

/-- `ECAUSE[2:0]`, 0 when the last command completed or none was issued (10_state.md R34). -/
def ecauseBits : Option CmdError → BitVec 3
  | none => 0
  | some e => e.code

/-- Step 1 of R250: `CMD <- w ; ECAUSE <- 0 ; EVAL <- 0 ; STATUS.DONE <- 0 ; STATUS.ERR <- 0`. It is also the return from
an error: "'Trap return' is the next command" (R258). -/
def State.beginCommand (s : State) (w : Word) : State :=
  { s with cmd := w, ecause := none, eval := 0, status := s.status.issued }

/-- `raise <Error>(info)` of R251, the whole of "trap entry" on this hardware (R257): `STATUS.ERR <- 1`,
`ECAUSE <- code`, `EVAL <- info`; nothing else changes. -/
def State.raise (s : State) (e : CmdError) (info : Word) : State :=
  { s with ecause := some e, eval := info, status := s.status.rejected }

/-- Step 4 of R250. -/
def State.completeCommand (s : State) : State := s.setStatus s.status.completed

/-- A failed test of step 2: the error and the information word of R254. -/
structure Rejection where
  error : CmdError
  info : Word
  deriving DecidableEq, Repr

/-- The issue of a legal command word `w` (60_exceptions.md R250): step 1, the command's validation, its body, step 4.
Validation sees the registers as they stand after step 1. -/
def runCommand (w : Word) (validate : State → Option Rejection) (body : State → State) (s : State) : State :=
  match validate (s.beginCommand w) with
  | some r => (s.beginCommand w).raise r.error r.info
  | none => (body (s.beginCommand w)).completeCommand

/-- The issue of an illegal command word: `E_OPCODE` with `EVAL = w` (30_encoding.md R93, 60_exceptions.md R253, R254). -/
def rejectWord (w : Word) (s : State) : State := (s.beginCommand w).raise .opcode w

end Sys2Proof.Machine
end

