-- ==== Sys2Proof/Machine/Operands.lean ====
section
/-! DEFINITION. The operand registers by name with their readings (10_state.md R21), and the buffers they describe
(20_memory.md R66 to R68). Addresses and sizes are integers: nothing wraps (R66). -/

namespace Sys2Proof.Machine

/-! ### Readings of R21: `u32` for addresses, strides and counts, `s32` for `DELTA` and the bounds -/

def State.src0Base (s : State) : Nat := s.x[0].toNat
def State.src0Stride (s : State) : Nat := s.x[1].toNat
def State.src1Base (s : State) : Nat := s.x[2].toNat
def State.src1Stride (s : State) : Nat := s.x[3].toNat
def State.dst0Base (s : State) : Nat := s.x[4].toNat
def State.dst0Stride (s : State) : Nat := s.x[5].toNat
def State.dst1Base (s : State) : Nat := s.x[6].toNat
def State.dst1Stride (s : State) : Nat := s.x[7].toNat
def State.tabBase (s : State) : Nat := s.x[8].toNat
def State.rows (s : State) : Nat := s.x[9].toNat
def State.cols (s : State) : Nat := s.x[10].toNat
def State.delta (s : State) : Int := s.x[11].toInt
def State.lowU (s : State) : Int := s.x[12].toInt
def State.highU (s : State) : Int := s.x[13].toInt
def State.lowV (s : State) : Int := s.x[14].toInt
def State.highV (s : State) : Int := s.x[15].toInt

/-! ### Buffers -/

/-- The buffers of the commands (R68). -/
inductive BufferName where
  | src0
  | src1
  | dst0
  | dst1
  | tab
  deriving DecidableEq, Repr

/-- The direction of a buffer (R66). -/
inductive Direction where
  | input
  | output
  deriving DecidableEq, Repr

/-- A buffer: base, stride, row count, used bytes per row and direction (R66). -/
structure Buffer where
  name : BufferName
  base : Nat
  stride : Nat
  nrows : Nat
  rowbytes : Nat
  dir : Direction
  deriving DecidableEq, Repr

/-- The number of the register that holds the buffer's base (R21, R68). -/
def BufferName.baseReg : BufferName → Word
  | .src0 => 0
  | .src1 => 2
  | .dst0 => 4
  | .dst1 => 6
  | .tab => 8

/-- The number of the buffer's stride register; "`TAB` has no stride register" (R68). -/
def BufferName.strideReg : BufferName → Option Word
  | .src0 => some 1
  | .src1 => some 3
  | .dst0 => some 5
  | .dst1 => some 7
  | .tab => none

/-- The address of byte `k` of row `r`: `base + r*stride + k` (R66). -/
def Buffer.addr (b : Buffer) (r k : Nat) : Nat := b.base + r * b.stride + k

/-- R67: 0 for an empty buffer, else `(nrows-1)*stride + rowbytes`. -/
def Buffer.extent (b : Buffer) : Nat :=
  if b.nrows = 0 ∨ b.rowbytes = 0 then 0 else (b.nrows - 1) * b.stride + b.rowbytes

/-- Whether two regions overlap (R67): the test is on the bounding intervals, gap bytes included. -/
def Buffer.overlaps (b c : Buffer) : Bool :=
  decide (0 < b.extent) && decide (0 < c.extent)
    && decide (b.base < c.base + c.extent) && decide (c.base < b.base + b.extent)

def State.src0 (s : State) (rowbytes : Nat) : Buffer :=
  { name := .src0, base := s.src0Base, stride := s.src0Stride, nrows := s.rows, rowbytes := rowbytes, dir := .input }

def State.src1 (s : State) (rowbytes : Nat) : Buffer :=
  { name := .src1, base := s.src1Base, stride := s.src1Stride, nrows := s.rows, rowbytes := rowbytes, dir := .input }

def State.dst0 (s : State) (rowbytes : Nat) : Buffer :=
  { name := .dst0, base := s.dst0Base, stride := s.dst0Stride, nrows := s.rows, rowbytes := rowbytes, dir := .output }

def State.dst1 (s : State) (rowbytes : Nat) : Buffer :=
  { name := .dst1, base := s.dst1Base, stride := s.dst1Stride, nrows := s.rows, rowbytes := rowbytes, dir := .output }

/-- The table: `ROWS+1` rows of `COLS+1` four-byte entries, no padding (R68, 41_integ.md R141). -/
def State.tab (s : State) (dir : Direction) : Buffer :=
  { name := .tab, base := s.tabBase, stride := 4 * (s.cols + 1), nrows := s.rows + 1, rowbytes := 4 * (s.cols + 1),
    dir := dir }

/-- `TADDR(r, c)` (41_integ.md R141). -/
def State.taddr (s : State) (r c : Nat) : Nat := s.tabBase + 4 * (r * (s.cols + 1) + c)

/-! ### The ordered buffer lists of R68 -/

def deintBuffers (s : State) : List Buffer := [s.src0 (2 * s.cols), s.dst0 s.cols, s.dst1 s.cols]
def integBuffers (s : State) : List Buffer := [s.src0 s.cols, s.tab .output]
def athrBuffers (s : State) : List Buffer := [s.src0 s.cols, s.tab .input, s.dst0 s.cols]
def adaptBuffers (s : State) : List Buffer := [s.src0 s.cols, s.tab .output, s.dst0 s.cols]
def rangeBuffers (s : State) : List Buffer := [s.src0 s.cols, s.src1 s.cols, s.dst0 s.cols]

/-! ### Pixels -/

/-- The byte of pixel `(r, c)` of `SRC0` (41_integ.md R140, 42_athr.md R160, 43_range.md R190). -/
def State.srcByte (s : State) (r c : Nat) : Byte := s.byte (s.src0Base + r * s.src0Stride + c)

/-- The byte of element `(r, c)` of `SRC1` (43_range.md R190). -/
def State.src1Byte (s : State) (r c : Nat) : Byte := s.byte (s.src1Base + r * s.src1Stride + c)

/-- The table entry `T[r][c]` in memory (41_integ.md R141). -/
def State.tableWord (s : State) (r c : Nat) : Word := s.word (s.taddr r c)

/-- The four-corner lookup of 41_integ.md R145, `wrap32(T[r1][c1] - T[r0][c1] - T[r1][c0] + T[r0][c0])`: two subtractions and
one addition (90_conflicts.md C4), whatever words the table holds. That it is the sum of the rectangle's pixels after a
completed `INTEG` is the lemma `integWrites_fourCorners` of Laws/Pixels.lean and the statement
`Obligations.FourCornersGiveRectangleSum`. -/
def State.fourCorners (s : State) (r0 r1 c0 c1 : Nat) : Word :=
  s.tableWord r1 c1 - s.tableWord r0 c1 - s.tableWord r1 c0 + s.tableWord r0 c0

/-- The rows of an image given by its elements, row-major. -/
def imageOf (nrows ncols : Nat) (f : Nat → Nat → Byte) : List (List Byte) :=
  (List.range nrows).map fun r => (List.range ncols).map fun c => f r c

end Sys2Proof.Machine
end

