-- ==== Sys2Proof/Machine/Validate.lean ====
section
/-! DEFINITION. Step 2 of a command issue: the operand tests in the order of 60_exceptions.md R253. They read registers and
parameters, no memory (R250). -/

namespace Sys2Proof.Machine

/-- Test 2, `E_GEOM`: `ROWS`, then `COLS` (10_state.md R23, 60_exceptions.md R253, R254). -/
def checkGeometry (s : State) : Option Rejection :=
  if Config.maxDim < s.rows then some ⟨.geom, 9⟩
  else if Config.maxDim < s.cols then some ⟨.geom, 10⟩
  else none

/-- Test 3, `E_STRIDE`: each buffer with a stride register, in list order (20_memory.md R69). -/
def checkStrides (bufs : List Buffer) : Option Rejection :=
  bufs.findSome? fun b =>
    match b.name.strideReg with
    | some n => if b.stride < b.rowbytes then some ⟨.stride, n⟩ else none
    | none => none

/-- Test 4, `E_ALIGN`: `TAB_BASE mod 4 != 0`, for a list that contains `TAB` (20_memory.md R65). -/
def checkAlign (bufs : List Buffer) : Option Rejection :=
  bufs.findSome? fun b => if b.name = .tab ∧ b.base % 4 ≠ 0 then some ⟨.align, b.name.baseReg⟩ else none

/-- Test 5, `E_BUS`: a non-empty region that ends beyond `MEM_SIZE` (20_memory.md R70). -/
def checkBus (memSize : Nat) (bufs : List Buffer) : Option Rejection :=
  bufs.findSome? fun b =>
    if 0 < b.extent ∧ memSize < b.base + b.extent then some ⟨.bus, b.name.baseReg⟩ else none

/-- Test 6, `E_OVERLAP`: each `out` buffer against each other buffer (20_memory.md R71). -/
def checkOverlap (bufs : List Buffer) : Option Rejection :=
  bufs.findSome? fun b =>
    if b.dir = .output ∧ (bufs.any fun c => decide (c.name ≠ b.name) && b.overlaps c) then
      some ⟨.overlap, b.name.baseReg⟩
    else none

/-- Tests 2 to 6: the first that fails (R253). -/
def validateWith (buffers : State → List Buffer) (s : State) : Option Rejection :=
  (checkGeometry s).or <| (checkStrides (buffers s)).or <| (checkAlign (buffers s)).or <|
    (checkBus s.cfg.memSize (buffers s)).or <| checkOverlap (buffers s)

end Sys2Proof.Machine
end

