-- ==== Sys2Proof/Machine/Integ.lean ====
section
/-! DEFINITION. `INTEG`, the integral-image accumulator (41_integ.md), by the row-wise recurrence of R143. That it gives the
sums of R142 is the lemma `integTable_getElem` of Laws/Integ.lean. Log entry 9. -/

namespace Sys2Proof.Machine

/-- The rows of pixels of `SRC0` (R140). -/
def sourceImage (s : State) : List (List Byte) := imageOf s.rows s.cols s.srcByte

/-- The inner loop of R143: the running row sum, the entries above, the pixels of the row. -/
def tableRowTail : Word → List Word → List Byte → List Word
  | rowsum, above :: aboves, p :: ps =>
    let sum := rowsum + p.setWidth 32
    (above + sum) :: tableRowTail sum aboves ps
  | _, [], _ => []
  | _, _, [] => []

/-- One row of the table from the row above it: entry 0 is zero (R143, R144). -/
def nextTableRow (above : List Word) (pixels : List Byte) : List Word := 0 :: tableRowTail 0 above.tail pixels

/-- The rows of the table from a given first one. -/
def tableRows : List Word → List (List Byte) → List (List Word)
  | row, [] => [row]
  | row, pixels :: image => row :: tableRows (nextTableRow row pixels) image

/-- The whole table, its row 0 all zero (R143, R144). -/
def integTable (s : State) : List (List Word) := tableRows (List.replicate (s.cols + 1) 0) (sourceImage s)

/-- `TOT`, the unbounded sum of all pixels (R146). -/
def imageTotal (s : State) : Nat := ((sourceImage s).map fun row => (row.map BitVec.toNat).sum).sum

/-- The writes of `INTEG`: every entry, little-endian and with no padding (R141, R142). -/
def integWrites (s : State) : Memory :=
  s.mem.writeRows s.tabBase (4 * (s.cols + 1)) ((integTable s).map fun row => row.flatMap leBytes)

/-- The table is written and `OVF` is set when `TOT > 2^31-1` (R142, R146). -/
def integBody (s : State) : State := (s.setMem (integWrites s)).setStatus (s.status.notedTotal (imageTotal s))

def integCommand (s : State) : State := runCommand 0x00000002 (validateWith integBuffers) integBody s

def execInteg (s : State) : Host.Outcome State Fault Refusal := .next (integCommand s)

end Sys2Proof.Machine
end

