-- ==== Sys2Proof/Machine/Athr.lean ====
section
/-! DEFINITION. `ATHR` and `ADAPT`, the adaptive local binarizer (42_athr.md). -/

namespace Sys2Proof.Machine

/-- The pixels that are thresholded: `7 <= i < ROWS - 8` and `7 <= j < COLS - 8` over the integers (R161). -/
def inInterior (rows cols i j : Nat) : Bool :=
  decide (Config.halfWidth ≤ i) && decide (i + (Config.halfWidth + 1) < rows)
    && decide (Config.halfWidth ≤ j) && decide (j + (Config.halfWidth + 1) < cols)

/-- The four-corner block sum of an interior pixel, wrapped to 32 bits and read as `s32` (R163, 41_integ.md R145). -/
def blockSum (s : State) (i j : Nat) : Int :=
  (s.fourCorners (i - Config.halfWidth) (i + (Config.halfWidth + 1)) (j - Config.halfWidth)
    (j + (Config.halfWidth + 1))).toInt

/-- The block mean, truncated toward zero (R164, 00_scope.md R10). -/
def blockMean (s : State) (i j : Nat) : Int := (blockSum s i j).tdiv Config.blockArea

/-- The output byte of pixel `(i, j)`: 0 or 255 on the interior, by an exact integer comparison (R165), the source byte
on the border band (R162, R166). -/
def athrByte (s : State) (i j : Nat) : Byte :=
  if inInterior s.rows s.cols i j then
    if ((s.srcByte i j).toNat : Int) < blockMean s i j - s.delta then 0x00 else 0xFF
  else s.srcByte i j

/-- The writes of `ATHR` (R166). The table is whatever words are at the four addresses (R167). -/
def athrBody (s : State) : State :=
  s.setMem (s.mem.writeRows s.dst0Base s.dst0Stride (imageOf s.rows s.cols (athrByte s)))

def athrCommand (s : State) : State := runCommand 0x00000003 (validateWith athrBuffers) athrBody s

def execAthr (s : State) : Host.Outcome State Fault Refusal := .next (athrCommand s)

/-- Phase 1 is complete before phase 2 reads the table (R170, R171). -/
def adaptBody (s : State) : State := athrBody (integBody s)

def adaptCommand (s : State) : State := runCommand 0x00000004 (validateWith adaptBuffers) adaptBody s

def execAdapt (s : State) : Host.Outcome State Fault Refusal := .next (adaptCommand s)

end Sys2Proof.Machine
end

