-- ==== Sys2Proof/Machine/Deint.lean ====
section
/-! DEFINITION. `DEINT`, the chroma-plane de-interleaver (40_deint.md). -/

namespace Sys2Proof.Machine

/-- The element of plane `p` at row `r`, column `c`: the first byte of pair `c` for the plane `CHROMA_FIRST`, the second
byte for the other (R121, R122). -/
def deintByte (s : State) (p : Plane) (r c : Nat) : Byte :=
  if s.cfg.chromaFirst = p then s.srcByte r (2 * c) else s.srcByte r (2 * c + 1)

/-- Plane `U` to `DST0`, plane `V` to `DST1` (R121). The bytes are read from the memory before the command: no output byte
is an input byte (20_memory.md R77, log entry 8). -/
def deintBody (s : State) : State :=
  s.setMem <|
    (s.mem.writeRows s.dst0Base s.dst0Stride (imageOf s.rows s.cols (deintByte s .u))).writeRows
      s.dst1Base s.dst1Stride (imageOf s.rows s.cols (deintByte s .v))

def deintCommand (s : State) : State := runCommand 0x00000001 (validateWith deintBuffers) deintBody s

def execDeint (s : State) : Host.Outcome State Fault Refusal := .next (deintCommand s)

end Sys2Proof.Machine
end

