-- ==== Sys2Proof/Machine/Range.lean ====
section
/-! DEFINITION. `RANGE`, the range comparator (43_range.md). -/

namespace Sys2Proof.Machine

/-- One channel's mask: `0xFF` when `low <= p <= high`, else `0x00`; the byte is zero-extended and the comparison is over
the integers (R191). The bounds are never swapped (R193). -/
def channelMask (low high : Int) (p : Byte) : Byte :=
  if low ≤ (p.toNat : Int) ∧ (p.toNat : Int) ≤ high then 0xFF else 0x00

/-- The combined mask of element `(r, c)` (R191). -/
def rangeByte (s : State) (r c : Nat) : Byte :=
  channelMask s.lowU s.highU (s.srcByte r c) &&& channelMask s.lowV s.highV (s.src1Byte r c)

/-- The writes of `RANGE` (R191). -/
def rangeBody (s : State) : State :=
  s.setMem (s.mem.writeRows s.dst0Base s.dst0Stride (imageOf s.rows s.cols (rangeByte s)))

def rangeCommand (s : State) : State := runCommand 0x00000005 (validateWith rangeBuffers) rangeBody s

def execRange (s : State) : Host.Outcome State Fault Refusal := .next (rangeCommand s)

end Sys2Proof.Machine
end

