-- ==== Sys2Proof/Machine/System.lean ====
section
/-! DEFINITION. `NOP` and the host accesses `WR` and `RD` (44_system.md, 10_state.md R30 to R36). -/

namespace Sys2Proof.Machine

/-- `NOP`: the issue sequence with no operand test and an empty body (R210). -/
def nopCommand (s : State) : State := runCommand 0x00000000 (fun _ => none) (fun t => t) s

def execNop (s : State) : Host.Outcome State Fault Refusal := .next (nopCommand s)

/-- A host write of word `w` to `CMD` (60_exceptions.md R250, 30_encoding.md R92, R93). -/
def issueWord (w : Word) (s : State) : State :=
  match opcodeOf w with
  | some .nop => nopCommand s
  | some .deint => deintCommand s
  | some .integ => integCommand s
  | some .athr => athrCommand s
  | some .adapt => adaptCommand s
  | some .range => rangeCommand s
  | none => rejectWord w s

/-- The words of the register window (10_state.md R30). -/
inductive WindowReg where
  | id
  | cmd
  | status
  | ecause
  | eval
  | reserved
  | operand (i : Fin 16)
  deriving DecidableEq, Repr

/-- The register at offset `off`, a multiple of 4 up to `0x7C` (10_state.md R20, R30). -/
def windowReg (off : BitVec 8) : WindowReg :=
  if off.getLsbD 6 then .operand (off.extractLsb' 2 4).toFin
  else
    match (off.extractLsb' 2 4).toNat with
    | 0 => .id
    | 1 => .cmd
    | 2 => .status
    | 3 => .ecause
    | 4 => .eval
    | _ => .reserved

/-- The effect of a host write, by register (R211). -/
def writeWindow (r : WindowReg) (val : Word) (s : State) : State :=
  match r with
  | .id => s
  | .cmd => issueWord val s
  | .status => s.setStatus (s.status.clearedBy val)
  | .ecause => s
  | .eval => s
  | .reserved => s
  | .operand i => s.setReg i val

/-- The word a host read returns, by register (R212). -/
def readWindow (r : WindowReg) (s : State) : Word :=
  match r with
  | .id => Config.idValue
  | .cmd => s.cmd
  | .status => s.status.word
  | .ecause => (ecauseBits s.ecause).setWidth 32
  | .eval => s.eval
  | .reserved => 0
  | .operand i => s.x[i]

/-- `WR off, val` (R211). An offset with bit 7 set lies outside the window and does not reach the block; an offset that is
no multiple of 4 has no meaning (R213, log entries 6 and 7). -/
def execWr (off : BitVec 8) (val : Word) (s : State) : Host.Outcome State Fault Refusal :=
  if off.getLsbD 7 then .next s
  else if off.extractLsb' 0 2 = 0 then .next (writeWindow (windowReg off) val s)
  else .refused .windowAccessNoMeaning

/-- `RD off` (R212): the word goes to the host, and no register, flag or memory byte changes. Offsets as for `WR`. -/
def execRd (off : BitVec 8) (s : State) : Host.Outcome State Fault Refusal :=
  if off.getLsbD 7 then .next s
  else if off.extractLsb' 0 2 = 0 then .next (s.setReadData (readWindow (windowReg off) s))
  else .refused .windowAccessNoMeaning

end Sys2Proof.Machine
end

