-- ==== Sys2Proof/Machine/Dispatch.lean ====
section
/-! DEFINITION. The meaning of every instruction, one arm per constructor. -/

namespace Sys2Proof.Machine

def exec (i : Instr) (s : State) : Host.Outcome State Fault Refusal :=
  match i with
  -- commands (30_encoding.md R92)
  | .nop => Sys2Proof.Machine.execNop s
  | .deint => Sys2Proof.Machine.execDeint s
  | .integ => Sys2Proof.Machine.execInteg s
  | .athr => Sys2Proof.Machine.execAthr s
  | .adapt => Sys2Proof.Machine.execAdapt s
  | .range => Sys2Proof.Machine.execRange s
  -- host accesses (30_encoding.md R96)
  | .wr off val => Sys2Proof.Machine.execWr off val s
  | .rd off => Sys2Proof.Machine.execRd off s

end Sys2Proof.Machine
end

