-- ==== Sys2Proof/Machine/HostAccess.lean ====
section
/-! DEFINITION. The host's steps that are no statement of the opcode table: data-memory accesses between commands
(20_memory.md R76, 45_host_pipeline.md R238), `rst` and loss of power (70_reset_and_hazards.md R290, R291), and what becomes
of bits that are no instruction (30_encoding.md R93, 44_system.md R213). -/

namespace Sys2Proof.Machine

/-- Bytes of an access (20_memory.md R73). -/
def Width.bytes : Width → Nat
  | .byte => 1
  | .word => 4

/-- A host read of data memory: the byte, zero-extended, or the little-endian word (20_memory.md R64). An address at or
above `MEM_SIZE` does not exist (R60). -/
def hostMemRead (addr : Word) (width : Width) (s : State) : Host.Outcome State Fault Refusal :=
  if addr.toNat + width.bytes ≤ s.cfg.memSize then
    .next (s.setReadData (match width with
      | .byte => (s.byte addr.toNat).setWidth 32
      | .word => s.word addr.toNat))
  else .fault .hostAddressAbsent

/-- A host write of data memory (20_memory.md R64, R76). A write that does not fit leaves nothing written. -/
def hostMemWrite (addr : Word) (width : Width) (val : Word) (s : State) : Host.Outcome State Fault Refusal :=
  if addr.toNat + width.bytes ≤ s.cfg.memSize then
    .next (s.writeBytes addr.toNat (match width with
      | .byte => [val.setWidth 8]
      | .word => leBytes val))
  else .fault .hostAddressAbsent

/-- `rst`: every register takes its reset value; data memory is not written (70_reset_and_hazards.md R290, R291). -/
def State.applyRst (s : State) : State :=
  { s with x := resetRegisters, cmd := 0, status := { done := false, err := false, ovf := false }, ecause := none, eval := 0 }

/-- Power removed and restored: the reset state, with every byte of data memory unspecified again
(60_exceptions.md R270, 70_reset_and_hazards.md R291). Log entry 13. -/
def State.applyPowerCycle (s : State) : State := { s.applyRst with mem := [], epoch := s.epoch + 1 }

/-- Bits that are no instruction: an illegal command word is rejected with `E_OPCODE` (30_encoding.md R93); an access
outside the window does not reach the block; an access with no meaning is refused (44_system.md R213). -/
def runRejected (r : DecodeReject) (s : State) : Host.Outcome State Fault Refusal :=
  match r with
  | .illegalCommand w => .next (rejectWord w s)
  | .outsideWindow => .next s
  | .windowAccessNoMeaning => .refused .windowAccessNoMeaning

/-- The instruction that a host step stands for, if it is a statement or a bus access. -/
def HostStep.decoded (cfg : Config) : HostStep → Option (Except DecodeReject Instr)
  | .word hw => some (decode hw)
  | .bus a => some (decodeAccess cfg a)
  | .memRead _ _ => none
  | .memWrite _ _ _ => none
  | .rst => none
  | .powerCycle => none

/-- A host step that is no statement and no bus access. -/
def runHostStep (h : HostStep) (s : State) : Host.Outcome State Fault Refusal :=
  match h with
  | .word _ => .next s
  | .bus _ => .next s
  | .memRead addr width => hostMemRead addr width s
  | .memWrite addr width val => hostMemWrite addr width val s
  | .rst => .next s.applyRst
  | .powerCycle => .next s.applyPowerCycle

/-- The block with no host step to serve: it "does nothing until the host's first `WR`" (70_reset_and_hazards.md R293)
and "holds its registers" (60_exceptions.md R270). Log entry 3. -/
def idle (s : State) : Host.Outcome State Fault Refusal := .next s

end Sys2Proof.Machine
end

