-- ==== Sys2Proof/Machine/Step.lean ====
section
/-! DEFINITION. One step: the next step of the host, taken off `pending` (00_scope.md R12, R13, 20_memory.md R76). -/

namespace Sys2Proof.Machine

/-- A decoded host step: the instruction runs, or the bits are treated as 30_encoding.md R93 and 44_system.md R213 say. -/
def runDecoded (d : Except DecodeReject Instr) (s : State) : Host.Outcome State Fault Refusal :=
  match d with
  | .ok i => exec i s
  | .error r => runRejected r s

/-- Steps are totally ordered in the order of the host's program (20_memory.md R76), each one indivisible (00_scope.md
R12). The block takes no step of its own accord (00_scope.md R13). -/
def step (s : State) : Host.Outcome State Fault Refusal :=
  match s.pending with
  | [] => idle s
  | h :: rest =>
    match h.decoded s.cfg with
    | some d => runDecoded d (s.setPending rest)
    | none => runHostStep h (s.setPending rest)

/-- The instruction of a table word becomes the next thing the host does. Log entry 2. -/
def State.withFetchWord (s : State) (nbits w : Nat) : State :=
  s.setPending (.word (tableHostWord nbits w) :: s.pending)

end Sys2Proof.Machine
end

