-- ==== Sys2Proof/Machine/HostPipeline.lean ====
section
/-! DEFINITION. The host side, outside the block: the statements and pseudo-instructions of 30_encoding.md R97 and R98, the
host sequences of 45_host_pipeline.md R231 and R237, and the host reference functions R233 and R234. Log entry 15. -/

namespace Sys2Proof.Machine

/-! ### Statements (R97) and pseudo-instructions (R98) -/

/-- The offset of `x[i]` (10_state.md R20). -/
def operandOffset (i : Fin 16) : BitVec 8 := BitVec.ofNat 8 (0x40 + 4 * i.val)

/-- `wr x[i], val` (R97). -/
def wrReg (i : Fin 16) (val : Word) : Instr := .wr (operandOffset i) val

def src0Stmts (base stride : Word) : List Instr := [wrReg 0 base, wrReg 1 stride]
def src1Stmts (base stride : Word) : List Instr := [wrReg 2 base, wrReg 3 stride]
def dst0Stmts (base stride : Word) : List Instr := [wrReg 4 base, wrReg 5 stride]
def dst1Stmts (base stride : Word) : List Instr := [wrReg 6 base, wrReg 7 stride]
def tabStmts (base : Word) : List Instr := [wrReg 8 base]
def geomStmts (rows cols : Word) : List Instr := [wrReg 9 rows, wrReg 10 cols]
def deltaStmts (d : Word) : List Instr := [wrReg 11 d]
def thrStmts (lowU highU lowV highV : Word) : List Instr :=
  [wrReg 12 lowU, wrReg 13 highU, wrReg 14 lowV, wrReg 15 highV]
def clrstStmts : List Instr := [.wr 0x08 0x00000007]
def clrovfStmts : List Instr := [.wr 0x08 0x00000004]

/-- A host program in its encoding, as `State.pending` holds it. -/
def asProgram (stmts : List Instr) : List HostStep := stmts.map fun i => .word (encode i)

/-! ### The host sequences -/

/-- The arguments of one call of `process` (R230) and the addresses of the persistent buffers (R231, R239). `frame` is
`F`; a frame is `width * height` luma bytes and then the chroma region (R232). -/
structure PipelineCall where
  frame : Word
  width : Word
  height : Word
  planeU : Word
  planeV : Word
  mask : Word
  lowU : Word
  highU : Word
  lowV : Word
  highV : Word
  deriving DecidableEq, Repr

/-- `width/2` and `height/2`: the geometry of a chroma plane (R231, 10_state.md R23). DESIGN CHOICE (log entry 18): a call
with an odd `width` or `height`, which R232's invariant excludes, is not refused, and its half is rounded down. -/
def PipelineCall.planeCols (c : PipelineCall) : Word := BitVec.ofNat 32 (c.width.toNat / 2)

/-- As `planeCols`, for `height` (log entry 18). -/
def PipelineCall.planeRows (c : PipelineCall) : Word := BitVec.ofNat 32 (c.height.toNat / 2)

/-- Step 1 of R231. DESIGN CHOICE (log entry 18): `F + width*height` is written to a 32-bit register, modulo 2^32; a frame
that ends beyond 2^32, which has no place in data memory, is not refused here. -/
def deintSequence (c : PipelineCall) : List Instr :=
  src0Stmts (c.frame + c.width * c.height) c.width ++ dst0Stmts c.planeU c.planeCols ++ dst1Stmts c.planeV c.planeCols
    ++ geomStmts c.planeRows c.planeCols ++ [.deint]

/-- Step 2 of R231, up to the host's rescale. -/
def rangeSequence (c : PipelineCall) : List Instr :=
  src0Stmts c.planeU c.planeCols ++ src1Stmts c.planeV c.planeCols ++ dst0Stmts c.mask c.planeCols
    ++ thrStmts c.lowU c.highU c.lowV c.highV ++ [.range]

/-- The default sequence, with the host's read of `STATUS` after each command (R231). -/
def defaultSequence (c : PipelineCall) : List Instr :=
  deintSequence c ++ [.rd 0x08] ++ rangeSequence c ++ [.rd 0x08]

/-- The alternate path on the luma plane (R237): `PT` a table area, `PG` an output image. -/
def alternateSequence (frame width height pt pg delta : Word) : List Instr :=
  src0Stmts frame width ++ tabStmts pt ++ dst0Stmts pg width ++ geomStmts height width ++ deltaStmts delta
    ++ [.adapt]

/-! ### Host reference functions -/

/-- Rescale: nearest neighbour at the exact factor 2, `full[y][x] = m[floor(y/2)][floor(x/2)]` (R233). -/
def rescaleByte (m : Nat → Nat → Byte) (y x : Nat) : Byte := m (y / 2) (x / 2)

/-- The full-resolution mask of an `nrows` by `ncols` mask (R233). -/
def rescale (nrows ncols : Nat) (m : Nat → Nat → Byte) : List (List Byte) :=
  imageOf (2 * nrows) (2 * ncols) (rescaleByte m)

/-- Expansion of one mask value to four bytes: the colour channels are `g`, the opacity byte is 255 (R234). `alphaIndex`
is the parameter `ALPHA_INDEX` of 00_scope.md R6, reference value 3. -/
def expandPixel (alphaIndex : Nat) (g : Byte) : List Byte :=
  (List.range 4).map fun k => if k = alphaIndex then 0xFF else g

/-- The destination surface, pixel `(y, x)` at byte offset `4*(y*width + x)` (R234). -/
def expandSurface (alphaIndex : Nat) (full : List (List Byte)) : List Byte :=
  full.flatMap fun row => row.flatMap (expandPixel alphaIndex)

/-- The mask element that a completed `RANGE` left in memory, as the host reads it (R231). -/
def maskByte (s : State) (r c : Nat) : Byte := s.byte (s.dst0Base + r * s.dst0Stride + c)

/-- Step 3 of R231 after a completed `RANGE`: the surface the host writes. -/
def finishFrame (alphaIndex : Nat) (s : State) : List Byte :=
  expandSurface alphaIndex (rescale s.rows s.cols (maskByte s))

/-! ### One call of `process` -/

/-- The two fatal conditions of a call, both before any command is issued (R235); neither is a code of the block
(60_exceptions.md R256). -/
inductive CallFailure where
  | formatMismatch
  | bufferAcquisitionFailure
  deriving DecidableEq, Repr

/-- How a call ends (R235, R240): fatally, with a rejected command, or with the whole destination surface. -/
inductive CallOutcome where
  | fatal (f : CallFailure)
  | commandRejected
  | surface (bytes : List Byte)
  deriving DecidableEq, Repr

/-- Statements run one after the other; `none` where one stops. -/
def runStatements : List Instr → State → Option State
  | [], s => some s
  | i :: is, s =>
    match exec i s with
    | .next t => runStatements is t
    | .fault _ => none
    | .refused _ => none

/-- One call of `process` (R230, R231, R240): no command is issued after a fatal condition, and the surface is written only
when both commands have completed. -/
def processCall (alphaIndex : Nat) (failure : Option CallFailure) (c : PipelineCall) (s : State) :
    Option (CallOutcome × State) :=
  match failure with
  | some f => some (.fatal f, s)
  | none =>
    match runStatements (deintSequence c) s with
    | none => none
    | some t =>
      if t.status.err then some (.commandRejected, t)
      else
        match runStatements (rangeSequence c) t with
        | none => none
        | some u =>
          if u.status.err then some (.commandRejected, u) else some (.surface (finishFrame alphaIndex u), u)

end Sys2Proof.Machine
end

