-- ==== Sys2Proof/Safety.lean ====
section
/-! DEFINITION. The terms claims are stated in: when a command's operands are legal, what a rejected and a completed command
leave, the invariant of the machine, exact sums of pixels. -/

namespace Sys2Proof

namespace Machine

/-- The operands of a command pass every test of 60_exceptions.md R253, said buffer by buffer (20_memory.md R65, R69 to R71,
10_state.md R23): the geometry is legal, no stride is less than its row, the table is aligned, every region is in memory,
no `out` region overlaps another region. -/
abbrev Legal (bufs : List Buffer) (s : State) : Prop :=
  s.rows ≤ 16384 ∧ s.cols ≤ 16384 ∧
    (∀ b ∈ bufs, (b.name ≠ .tab → b.rowbytes ≤ b.stride) ∧ (b.name = .tab → b.base % 4 = 0) ∧
      (0 < b.extent → b.base + b.extent ≤ s.cfg.memSize)) ∧
    ∀ b ∈ bufs, b.dir = .output → ∀ c ∈ bufs, c.name ≠ b.name →
      ¬(0 < b.extent ∧ 0 < c.extent ∧ b.base < c.base + c.extent ∧ c.base < b.base + b.extent)

/-- The state in which the issue of word `w` ends when it is rejected with error `e` and information word `info`
(60_exceptions.md R250, R251): `CMD`, `DONE`, `ERR`, `ECAUSE` and `EVAL` are written and nothing else changes. -/
def State.rejected (s : State) (w : Word) (e : CmdError) (info : Word) : State :=
  { s with cmd := w, status := { done := false, err := true, ovf := s.status.ovf }, ecause := some e, eval := info }

/-- The state in which the issue of word `w` ends when it completes with memory `m` and overflow flag `ovf`
(60_exceptions.md R250): nothing but `CMD`, `STATUS`, `ECAUSE`, `EVAL` and memory changes. -/
def State.completed (s : State) (w : Word) (m : Memory) (ovf : Bool) : State :=
  { s with cmd := w, status := { done := true, err := false, ovf := ovf }, ecause := none, eval := 0, mem := m }

/-- The command instructions, the ones a write to `CMD` issues (30_encoding.md R92). -/
def isCommand : Instr → Bool
  | .nop => true
  | .deint => true
  | .integ => true
  | .athr => true
  | .adapt => true
  | .range => true
  | .wr _ _ => false
  | .rd _ => false

/-- The registers each instruction reads as operands (30_encoding.md R95); the host accesses are no commands. -/
def registersRead : Instr → List (Fin 16)
  | .nop => []
  | .deint => [0, 1, 4, 5, 6, 7, 9, 10]
  | .integ => [0, 1, 8, 9, 10]
  | .athr => [0, 1, 4, 5, 8, 9, 10, 11]
  | .adapt => [0, 1, 4, 5, 8, 9, 10, 11]
  | .range => [0, 1, 2, 3, 4, 5, 9, 10, 12, 13, 14, 15]
  | .wr _ _ => []
  | .rd _ => []

/-- The buffer list of each command (20_memory.md R68, 30_encoding.md R95). -/
def buffersOf (i : Instr) (s : State) : List Buffer :=
  match i with
  | .nop => []
  | .deint => deintBuffers s
  | .integ => integBuffers s
  | .athr => athrBuffers s
  | .adapt => adaptBuffers s
  | .range => rangeBuffers s
  | .wr _ _ => []
  | .rd _ => []

/-! The region tests of 20_memory.md R67, R70 and R71 said with plain numbers, beside the model's own. -/

/-- The extent of a buffer (R67). -/
def regionExtent (nrows stride rowbytes : Nat) : Nat :=
  if nrows = 0 ∨ rowbytes = 0 then 0 else (nrows - 1) * stride + rowbytes

/-- A non-empty region that ends beyond memory (R70). -/
abbrev beyondMemory (memSize base extent : Nat) : Prop := 0 < extent ∧ base + extent > memSize

/-- Two regions overlap (R67). -/
abbrev regionsMeet (base1 extent1 base2 extent2 : Nat) : Prop :=
  0 < extent1 ∧ 0 < extent2 ∧ base1 < base2 + extent2 ∧ base2 < base1 + extent1

/-- A state reports the error of `r`, or none (10_state.md R33 to R35): `ERR`, `DONE`, `ECAUSE` and `EVAL` say so. -/
def State.reports (t : State) (r : Option (CmdError × Word)) : Prop :=
  t.status.err = r.isSome ∧ t.status.done = !r.isSome ∧ t.ecause = r.map (·.1) ∧ t.eval = (r.map (·.2)).getD 0

/-- The exact sum of the pixels of `SRC0` in rows `r0 .. r1-1` and columns `c0 .. c1-1`, over the integers
(41_integ.md R142, R145). -/
def pixelSum (s : State) (r0 r1 c0 c1 : Nat) : Nat :=
  ∑ r ∈ Finset.Ico r0 r1, ∑ c ∈ Finset.Ico c0 c1, (s.srcByte r c).toNat

/-- The pseudocode of `DEINT` read literally (40_deint.md R121): row by row and column by column, each pair read from the
memory as the loop has left it so far, each byte written at once. -/
def deintPair (s : State) (r c : Nat) : State :=
  let a := s.byte (s.src0Base + r * s.src0Stride + 2 * c)
  let b := s.byte (s.src0Base + r * s.src0Stride + 2 * c + 1)
  let (u, v) := if s.cfg.chromaFirst = .u then (a, b) else (b, a)
  (s.writeBytes (s.dst0Base + r * s.dst0Stride + c) [u]).writeBytes (s.dst1Base + r * s.dst1Stride + c) [v]

def deintRow (s : State) (r : Nat) : State := (List.range s.cols).foldl (fun t c => deintPair t r c) s

def deintLoop (s : State) : State := (List.range s.rows).foldl deintRow s

/-- The invariant of the machine: the parameters are in their ranges; memory keeps its canonical form and holds only
addresses that exist (10_state.md R40, 20_memory.md R60); `DONE` and `ERR` are never both set; `DONE` means no error code,
`ERR` means one (10_state.md R33, R34); with no error code `EVAL` is 0 (R35). -/
def Invariant (s : State) : Prop :=
  s.cfg.wf = true ∧ s.mem.wf = true ∧ (∀ c ∈ s.mem, c.1 < s.cfg.memSize) ∧
    ¬(s.status.done = true ∧ s.status.err = true) ∧
    (s.status.done = true → s.ecause = none) ∧ (s.status.err = true → s.ecause ≠ none) ∧
    (s.ecause = none → s.eval = 0)

end Machine

end Sys2Proof
end

