-- ==== Sys2Proof/WellFormed.lean ====
section
/-! DEFINITION. Which instruction terms the encodings admit (30_encoding.md R96). -/

namespace Sys2Proof

/-- An offset that reaches a word of the register window: "bit 7 and bits 1:0 are zero" (R96). -/
def offsetWf (off : BitVec 8) : Bool := !off.getLsbD 7 && off.extractLsb' 0 2 == 0

/-- A command has no field to check (R90); a host access has its offset (R96, 44_system.md R211, R212). -/
def Instr.wf : Instr → Bool
  | .nop => true
  | .deint => true
  | .integ => true
  | .athr => true
  | .adapt => true
  | .range => true
  | .wr off _ => offsetWf off
  | .rd off => offsetWf off

end Sys2Proof
end

