-- ==== Sys2Proof/Certificates/Slice0/Obligations.lean ====
section
/-! DEFINITION. The statements for the provers. In each docstring "log" names an entry of notes/assumptions. -/

open Sys2Proof Sys2Proof.Machine

/-! ### Encoding -/

/-- Decoding the encoding of a well-formed instruction gives it back, operands included (30_encoding.md R90, R92, R96). -/
def Obligations.DecodeOfEncode : Prop := ∀ i : Instr, i.wf = true → decode (encode i) = .ok i

/-- A command word that decodes has one meaning: it is the encoding of what it decodes to; so is a transaction that decodes
to a `WR` (30_encoding.md R92, R96). -/
def Obligations.DecodedWordHasOneMeaning : Prop :=
  (∀ w i, decode (.command w) = .ok i → encode i = .command w) ∧
    ∀ t off val, decode (.transaction t) = .ok (.wr off val) → encode (.wr off val) = .transaction t

/-- Whatever decodes is well formed, from either format and from the host's bus (30_encoding.md R96, 44_system.md R213). -/
def Obligations.DecodedInstructionIsWellFormed : Prop :=
  (∀ hw i, decode hw = .ok i → i.wf = true) ∧ ∀ cfg a i, decodeAccess cfg a = .ok i → i.wf = true

/-- Words written out from 30_encoding.md R92 and R96 decode to the instructions they stand for. -/
def Obligations.SpecWordsDecode : Prop :=
  decode (.command 0x00000000) = .ok .nop ∧ decode (.command 0x00000001) = .ok .deint ∧
    decode (.command 0x00000002) = .ok .integ ∧ decode (.command 0x00000003) = .ok .athr ∧
    decode (.command 0x00000004) = .ok .adapt ∧ decode (.command 0x00000005) = .ok .range ∧
    decode (.transaction 0b10100000000000000000000000000000100000000) = .ok (.wr 0x40 0x100) ∧
    decode (.transaction 0b00000100000000000000000000000000000000000) = .ok (.rd 0x08) ∧
    decode (.command 0x00000006) = .error (.illegalCommand 6) ∧
    decode (.command 0x00000101) = .error (.illegalCommand 0x101)

/-- R93: an illegal word is rejected with `E_OPCODE` and `EVAL = w`, for every opcode and every reserved bit; no other word
is. -/
def Obligations.IllegalWordsAreRejected : Prop :=
  ∀ (s : State) (w : Word),
    ((w.extractLsb' 8 24 ≠ 0 ∨ 0x06 ≤ (w.extractLsb' 0 8).toNat) →
      exec (.wr 0x04 w) s = .next (s.rejected w .opcode w)) ∧
    (¬(w.extractLsb' 8 24 ≠ 0 ∨ 0x06 ≤ (w.extractLsb' 0 8).toNat) →
      ∃ t, exec (.wr 0x04 w) s = .next t ∧ t.ecause ≠ some .opcode)

/-- The statements `nop`, `deint`, .. are writes of their words to `CMD` (30_encoding.md R97). -/
def Obligations.CommandStatementIsWriteToCmd : Prop :=
  ∀ s, exec .nop s = exec (.wr 0x04 0x00000000) s ∧ exec .deint s = exec (.wr 0x04 0x00000001) s ∧
    exec .integ s = exec (.wr 0x04 0x00000002) s ∧ exec .athr s = exec (.wr 0x04 0x00000003) s ∧
    exec .adapt s = exec (.wr 0x04 0x00000004) s ∧ exec .range s = exec (.wr 0x04 0x00000005) s

/-! ### Steps -/

/-- When the host's next step is a statement, or a bus access, that decodes to `i`, the step is `exec i` on the state with
that step taken off the host's list (20_memory.md R76; log 2). -/
def Obligations.StepRunsTheDecodedInstruction : Prop :=
  ∀ (s : State) (rest : List HostStep) (i : Instr),
    (∀ hw, s.pending = .word hw :: rest → decode hw = .ok i → step s = exec i { s with pending := rest }) ∧
    ∀ a, s.pending = .bus a :: rest → decodeAccess s.cfg a = .ok i → step s = exec i { s with pending := rest }

/-- A statement that is an illegal command word is rejected by the block, it does not stop the machine (30_encoding.md R93). -/
def Obligations.StepRejectsIllegalWord : Prop :=
  ∀ (s : State) (rest : List HostStep) (w : Word), s.pending = .word (.command w) :: rest →
    decode (.command w) = .error (.illegalCommand w) →
    step s = .next ({ s with pending := rest }.rejected w .opcode w)

/-- With nothing for the host to do the block does nothing (70_reset_and_hazards.md R293, 60_exceptions.md R270; log 3). -/
def Obligations.IdleBlockDoesNothing : Prop := ∀ s : State, s.pending = [] → step s = .next s

/-- R213: an access to the window that is not one 32-bit access at a multiple of 4 is refused, one outside the window leaves
the block alone, and an aligned 32-bit access inside it is a `WR` or `RD` at its offset (10_state.md R30). What counts as
touching the window is the model's choice: log 6 and 7, and log 17 for the bytes of a burst. -/
def Obligations.BusAccessMeaning : Prop :=
  ∀ (s : State) (a : BusAccess) (rest : List HostStep), s.pending = .bus a :: rest →
    let base := s.cfg.regBase.toNat
    let inWindow := base < a.addr.toNat + a.bytes * a.beats ∧ a.addr.toNat < base + 128
    let aligned := a.bytes = 4 ∧ a.beats = 1 ∧ base ≤ a.addr.toNat ∧ (a.addr.toNat - base) % 4 = 0
    (¬inWindow → step s = .next { s with pending := rest }) ∧
    (inWindow → ¬aligned → step s = .refused .windowAccessNoMeaning) ∧
    (inWindow → aligned → step s =
      exec (if a.write then .wr (BitVec.ofNat 8 (a.addr.toNat - base)) a.data
        else .rd (BitVec.ofNat 8 (a.addr.toNat - base))) { s with pending := rest })

/-! ### Host accesses to the window -/

/-- R211: `WR` by offset. A write to `CMD` issues the command `val`; a write to `STATUS` clears the bits it has set in
`val[2:0]`; a write to an operand register writes that register; every other write does nothing. -/
def Obligations.WrEffectByOffset : Prop :=
  ∀ (s : State) (off : BitVec 8) (val : Word), off.toNat ≤ 0x7C → off.toNat % 4 = 0 →
    (off = 0x04 → exec (.wr off val) s = .next (issueWord val s)) ∧
    (off ≠ 0x04 → ∃ t, exec (.wr off val) s = .next t ∧ t = { s with x := t.x, status := t.status } ∧
      (t.status.bits = if off = 0x08 then s.status.bits &&& ~~~(val.extractLsb' 0 3) else s.status.bits) ∧
      ∀ i : Fin 16, t.x[i] = if off.toNat = 0x40 + 4 * i.val then val else s.x[i])

/-- `RD` by offset: the word returned, in the model's field `readData` (log 4), and nothing else changes (44_system.md R212,
10_state.md R31 to R36, codes of 60_exceptions.md R252). -/
def Obligations.RdReturnsByOffset : Prop :=
  ∀ (s : State) (off : BitVec 8), off.toNat ≤ 0x7C → off.toNat % 4 = 0 →
    let w : Word :=
      if off = 0x00 then 0x53445031
      else if off = 0x04 then s.cmd
      else if off = 0x08 then BitVec.ofNat 32 (4 * s.status.ovf.toNat + 2 * s.status.err.toNat + s.status.done.toNat)
      else if off = 0x0C then
        match s.ecause with
        | none => 0
        | some .opcode => 1
        | some .geom => 2
        | some .stride => 3
        | some .align => 4
        | some .bus => 5
        | some .overlap => 6
      else if off = 0x10 then s.eval
      else if off.toNat < 0x40 then 0
      else (s.x[(off.toNat - 0x40) / 4]?).getD 0
    exec (.rd off) s = .next { s with readData := some w }

/-- A `WR` or `RD` whose offset field is no multiple of 4 inside the window is refused, and one outside the window does not
reach the block (44_system.md R213; log 6, 7). -/
def Obligations.AccessOffTheWindowWords : Prop :=
  ∀ (s : State) (off : BitVec 8) (val : Word),
    (off.toNat < 0x80 → off.toNat % 4 ≠ 0 →
      exec (.wr off val) s = .refused .windowAccessNoMeaning ∧ exec (.rd off) s = .refused .windowAccessNoMeaning) ∧
    (0x80 ≤ off.toNat → exec (.wr off val) s = .next s ∧ exec (.rd off) s = .next s)

/-! ### The issue of a command -/

/-- R210: `NOP` runs the issue sequence with an empty body, from every state; its only error is the one its reserved bits
raise. -/
def Obligations.NopOnlyUpdatesStatus : Prop :=
  ∀ s : State,
    exec .nop s = .next { s with cmd := 0, ecause := none, eval := 0,
                                 status := { s.status with done := true, err := false } } ∧
    ∀ w : Word, w.extractLsb' 0 8 = 0 → w.extractLsb' 8 24 ≠ 0 →
      exec (.wr 0x04 w) s = .next (s.rejected w .opcode w)

/-- Every issue ends in one step, completed or rejected and not both; it writes `CMD`, `STATUS`, `ECAUSE`, `EVAL` and memory
and nothing else (60_exceptions.md R250; 10_state.md R22, R32 to R35). -/
def Obligations.EveryIssueEnds : Prop :=
  ∀ (s : State) (w : Word), ∃ t, exec (.wr 0x04 w) s = .next t ∧
    t = { s with cmd := w, status := t.status, ecause := t.ecause, eval := t.eval, mem := t.mem } ∧
    (t.status.done = !t.status.err) ∧ (t.status.done = true ↔ t.ecause = none) ∧ (t.status.done = true → t.eval = 0)

/-- R251: a rejected command sets `ERR`, `ECAUSE` and `EVAL`, and nothing else changes but `CMD` and `DONE`, which step 1
wrote. -/
def Obligations.RejectedCommandChangesNothingElse : Prop :=
  ∀ (s t : State) (w : Word), exec (.wr 0x04 w) s = .next t → t.status.err = true →
    ∃ e, t.ecause = some e ∧
      t = { s with cmd := w, status := { done := false, err := true, ovf := s.status.ovf }, ecause := some e,
                   eval := t.eval }

/-- R22: a step that changes an operand register is a `WR` to it, or reset. No command changes one. -/
def Obligations.OperandRegistersChangeOnlyByWrOrReset : Prop :=
  ∀ s t : State, step s = .next t → ∀ i : Fin 16, t.x[i] ≠ s.x[i] →
    ∃ h rest, s.pending = h :: rest ∧
      (h = .rst ∨ h = .powerCycle ∨
        ∃ off val, h.decoded s.cfg = some (.ok (.wr off val)) ∧ off.toNat = 0x40 + 4 * i.val ∧ t.x[i] = val)

/-- `OVF` is sticky: an instruction clears it only as a write of 1 to its bit of `STATUS`, and only `INTEG` and `ADAPT` set
it (10_state.md R33, R38). -/
def Obligations.OverflowFlagIsSticky : Prop :=
  ∀ (s t : State) (i : Instr), exec i s = .next t →
    (s.status.ovf = true → t.status.ovf = false → ∃ val : Word, i = .wr 0x08 val ∧ val.getLsbD 2 = true) ∧
    (s.status.ovf = false → t.status.ovf = true →
      i = .integ ∨ i = .adapt ∨ i = .wr 0x04 0x00000002 ∨ i = .wr 0x04 0x00000004)

/-- R38: no command reads a flag, and whether `OVF` is set does not depend on `DONE` or `ERR`; each command writes `DONE` and
`ERR`; only `INTEG` and `ADAPT` write `OVF`, and they only set it. -/
def Obligations.NoCommandReadsAFlag : Prop :=
  ∀ (s : State) (f : Status) (i : Instr), isCommand i = true →
    ∃ t u, exec i s = .next t ∧ exec i { s with status := f } = .next u ∧
      u = { t with status := { t.status with ovf := u.status.ovf } } ∧
      (t.status.done = !t.status.err) ∧ (f.ovf = true → u.status.ovf = true) ∧
      (f.ovf = s.status.ovf → u.status.ovf = t.status.ovf) ∧
      (i ≠ .integ → i ≠ .adapt → u.status.ovf = f.ovf)

/-- A register that R95 does not list for a command is ignored by it: the command does the same whatever it holds, and
leaves it (30_encoding.md R95). -/
def Obligations.UnlistedRegistersAreIgnored : Prop :=
  ∀ (s : State) (i : Instr) (k : Fin 16) (v : Word), isCommand i = true → k ∉ registersRead i →
    ∃ t, exec i s = .next t ∧ exec i (s.setReg k v) = .next (t.setReg k v)

/-- R258: the return from an error is the next command, which runs, with the registers corrected, as if the rejected one had
never been issued; a write of 2 to `STATUS` clears `ERR` alone and leaves `ECAUSE` and `EVAL`. -/
def Obligations.CorrectedCommandRunsAsIfFirst : Prop :=
  ∀ (s t : State) (w : Word), exec (.wr 0x04 w) s = .next t → t.status.err = true →
    (∀ (w' : Word) (i : Fin 16) (v : Word),
      exec (.wr 0x04 w') (t.setReg i v) = exec (.wr 0x04 w') (s.setReg i v) ∧ exec (.wr 0x04 w') t = exec (.wr 0x04 w') s) ∧
    exec (.wr 0x08 2) t = .next { t with status := { t.status with err := false } }

/-! ### The errors of each command, in the order of their tests -/

/-- R125: the errors of `DEINT`. -/
def Obligations.DeintErrorsInOrder : Prop :=
  ∀ s : State,
    let R := s.x[9].toNat
    let C := s.x[10].toNat
    let M := s.cfg.memSize
    let src := regionExtent R s.x[1].toNat (2 * C)
    let dst0 := regionExtent R s.x[5].toNat C
    let dst1 := regionExtent R s.x[7].toNat C
    ∃ t, exec .deint s = .next t ∧ (t.ecause ≠ none → t.mem = s.mem) ∧ t.reports
      (if 16384 < R then some (.geom, 9)
      else if 16384 < C then some (.geom, 10)
      else if s.x[1].toNat < 2 * C then some (.stride, 1)
      else if s.x[5].toNat < C then some (.stride, 5)
      else if s.x[7].toNat < C then some (.stride, 7)
      else if beyondMemory M s.x[0].toNat src then some (.bus, 0)
      else if beyondMemory M s.x[4].toNat dst0 then some (.bus, 4)
      else if beyondMemory M s.x[6].toNat dst1 then some (.bus, 6)
      else if regionsMeet s.x[4].toNat dst0 s.x[0].toNat src ∨ regionsMeet s.x[4].toNat dst0 s.x[6].toNat dst1 then
        some (.overlap, 4)
      else if regionsMeet s.x[6].toNat dst1 s.x[0].toNat src then some (.overlap, 6)
      else none)

/-- R148: the errors of `INTEG`. -/
def Obligations.IntegErrorsInOrder : Prop :=
  ∀ s : State,
    let R := s.x[9].toNat
    let C := s.x[10].toNat
    let M := s.cfg.memSize
    let src := regionExtent R s.x[1].toNat C
    let tab := 4 * ((R + 1) * (C + 1))
    ∃ t, exec .integ s = .next t ∧ (t.ecause ≠ none → t.mem = s.mem ∧ t.status.ovf = s.status.ovf) ∧ t.reports
      (if 16384 < R then some (.geom, 9)
      else if 16384 < C then some (.geom, 10)
      else if s.x[1].toNat < C then some (.stride, 1)
      else if s.x[8].toNat % 4 ≠ 0 then some (.align, 8)
      else if beyondMemory M s.x[0].toNat src then some (.bus, 0)
      else if beyondMemory M s.x[8].toNat tab then some (.bus, 8)
      else if regionsMeet s.x[8].toNat tab s.x[0].toNat src then some (.overlap, 8)
      else none)

/-- R168: the errors of `ATHR`. -/
def Obligations.AthrErrorsInOrder : Prop :=
  ∀ s : State,
    let R := s.x[9].toNat
    let C := s.x[10].toNat
    let M := s.cfg.memSize
    let src := regionExtent R s.x[1].toNat C
    let tab := 4 * ((R + 1) * (C + 1))
    let dst := regionExtent R s.x[5].toNat C
    ∃ t, exec .athr s = .next t ∧ (t.ecause ≠ none → t.mem = s.mem) ∧ t.reports
      (if 16384 < R then some (.geom, 9)
      else if 16384 < C then some (.geom, 10)
      else if s.x[1].toNat < C then some (.stride, 1)
      else if s.x[5].toNat < C then some (.stride, 5)
      else if s.x[8].toNat % 4 ≠ 0 then some (.align, 8)
      else if beyondMemory M s.x[0].toNat src then some (.bus, 0)
      else if beyondMemory M s.x[8].toNat tab then some (.bus, 8)
      else if beyondMemory M s.x[4].toNat dst then some (.bus, 4)
      else if regionsMeet s.x[4].toNat dst s.x[0].toNat src ∨ regionsMeet s.x[4].toNat dst s.x[8].toNat tab then
        some (.overlap, 4)
      else none)

/-- R172: the errors of `ADAPT`; the validation is done once, so a rejected `ADAPT` writes neither table nor image. -/
def Obligations.AdaptErrorsInOrder : Prop :=
  ∀ s : State,
    let R := s.x[9].toNat
    let C := s.x[10].toNat
    let M := s.cfg.memSize
    let src := regionExtent R s.x[1].toNat C
    let tab := 4 * ((R + 1) * (C + 1))
    let dst := regionExtent R s.x[5].toNat C
    ∃ t, exec .adapt s = .next t ∧ (t.ecause ≠ none → t.mem = s.mem ∧ t.status.ovf = s.status.ovf) ∧ t.reports
      (if 16384 < R then some (.geom, 9)
      else if 16384 < C then some (.geom, 10)
      else if s.x[1].toNat < C then some (.stride, 1)
      else if s.x[5].toNat < C then some (.stride, 5)
      else if s.x[8].toNat % 4 ≠ 0 then some (.align, 8)
      else if beyondMemory M s.x[0].toNat src then some (.bus, 0)
      else if beyondMemory M s.x[8].toNat tab then some (.bus, 8)
      else if beyondMemory M s.x[4].toNat dst then some (.bus, 4)
      else if regionsMeet s.x[8].toNat tab s.x[0].toNat src ∨ regionsMeet s.x[8].toNat tab s.x[4].toNat dst then
        some (.overlap, 8)
      else if regionsMeet s.x[4].toNat dst s.x[0].toNat src then some (.overlap, 4)
      else none)

/-- R196: the errors of `RANGE`. -/
def Obligations.RangeErrorsInOrder : Prop :=
  ∀ s : State,
    let R := s.x[9].toNat
    let C := s.x[10].toNat
    let M := s.cfg.memSize
    let src0 := regionExtent R s.x[1].toNat C
    let src1 := regionExtent R s.x[3].toNat C
    let dst := regionExtent R s.x[5].toNat C
    ∃ t, exec .range s = .next t ∧ (t.ecause ≠ none → t.mem = s.mem) ∧ t.reports
      (if 16384 < R then some (.geom, 9)
      else if 16384 < C then some (.geom, 10)
      else if s.x[1].toNat < C then some (.stride, 1)
      else if s.x[3].toNat < C then some (.stride, 3)
      else if s.x[5].toNat < C then some (.stride, 5)
      else if beyondMemory M s.x[0].toNat src0 then some (.bus, 0)
      else if beyondMemory M s.x[2].toNat src1 then some (.bus, 2)
      else if beyondMemory M s.x[4].toNat dst then some (.bus, 4)
      else if regionsMeet s.x[4].toNat dst s.x[0].toNat src0 ∨ regionsMeet s.x[4].toNat dst s.x[2].toNat src1 then
        some (.overlap, 4)
      else none)

/-! ### `DEINT` -/

/-- R121: on legal operands `DEINT` completes; each plane byte is its byte of the pair, by `CHROMA_FIRST`; nothing but the
planes, `CMD`, `STATUS`, `ECAUSE` and `EVAL` changes. -/
def Obligations.DeintSplitsBytePairs : Prop :=
  ∀ s : State, Legal (deintBuffers s) s →
    ∃ t, exec .deint s = .next t ∧ t = s.completed 0x00000001 t.mem s.status.ovf ∧
      (∀ r < s.x[9].toNat, ∀ c < s.x[10].toNat,
        let a := s.byte (s.x[0].toNat + r * s.x[1].toNat + 2 * c)
        let b := s.byte (s.x[0].toNat + r * s.x[1].toNat + 2 * c + 1)
        t.byte (s.x[4].toNat + r * s.x[5].toNat + c) = (if s.cfg.chromaFirst = .u then a else b) ∧
        t.byte (s.x[6].toNat + r * s.x[7].toNat + c) = (if s.cfg.chromaFirst = .u then b else a)) ∧
      ∀ k, (∀ r < s.x[9].toNat, ∀ c < s.x[10].toNat,
        k ≠ s.x[4].toNat + r * s.x[5].toNat + c ∧ k ≠ s.x[6].toNat + r * s.x[7].toNat + c) → t.byte k = s.byte k

/-- The converse plane order is the effect of exchanging the two destinations (40_deint.md R122): `DEINT` with
`CHROMA_FIRST = V` leaves the memory that it leaves with `U` and `x4, x5` exchanged with `x6, x7`. -/
def Obligations.PlaneOrderIsDestinationSwap : Prop :=
  ∀ s : State, Legal (deintBuffers s) s →
    ∃ t u, exec .deint { s with cfg := { s.cfg with chromaFirst := .v } } = .next t ∧
      exec .deint { s with cfg := { s.cfg with chromaFirst := .u },
                           x := (((s.x.set 4 s.x[6]).set 5 s.x[7]).set 6 s.x[4]).set 7 s.x[5] } = .next u ∧
      t.status.done = true ∧ u.status.done = true ∧ ∀ k, t.byte k = u.byte k

/-- The pseudocode's loop read literally, each byte read and written in turn, gives the memory of `DEINT`: the order inside
a command is not observable (20_memory.md R77; log 8). -/
def Obligations.DeintLoopOrderUnobservable : Prop :=
  ∀ s : State, Legal (deintBuffers s) s → ∃ t, exec .deint s = .next t ∧ ∀ k, t.byte k = (deintLoop s).byte k

/-! ### `INTEG` -/

/-- R142: on legal operands `INTEG` completes and writes every entry as the sum of the pixels above and to the left, modulo
`2^32`; `OVF` is set when the total exceeds `2^31-1` and otherwise left; nothing else changes. -/
def Obligations.IntegWritesPrefixSums : Prop :=
  ∀ s : State, Legal (integBuffers s) s →
    ∃ t, exec .integ s = .next t ∧
      t = s.completed 0x00000002 t.mem
        (s.status.ovf || decide (pixelSum s 0 s.x[9].toNat 0 s.x[10].toNat > 2147483647)) ∧
      (∀ r ≤ s.x[9].toNat, ∀ c ≤ s.x[10].toNat,
        t.word (s.x[8].toNat + 4 * (r * (s.x[10].toNat + 1) + c)) = BitVec.ofNat 32 (pixelSum s 0 r 0 c)) ∧
      ∀ k, (k < s.x[8].toNat ∨ s.x[8].toNat + 4 * ((s.x[9].toNat + 1) * (s.x[10].toNat + 1)) ≤ k) →
        t.byte k = s.byte k

/-- R145: after a completed `INTEG` the four corners of any rectangle give its sum modulo `2^32`, exactly through `s32`
whenever the sum is at most `2^31-1`, as it always is for a block of 15 by 15. -/
def Obligations.FourCornersGiveRectangleSum : Prop :=
  ∀ s : State, Legal (integBuffers s) s → ∃ t, exec .integ s = .next t ∧ t.status.done = true ∧
    ∀ r0 r1 c0 c1, r0 ≤ r1 → r1 ≤ s.x[9].toNat → c0 ≤ c1 → c1 ≤ s.x[10].toNat →
      let T := fun r c => t.word (s.x[8].toNat + 4 * (r * (s.x[10].toNat + 1) + c))
      let D := T r1 c1 - T r0 c1 - T r1 c0 + T r0 c0
      D = BitVec.ofNat 32 (pixelSum s r0 r1 c0 c1) ∧
      (pixelSum s r0 r1 c0 c1 ≤ 2147483647 → D.toInt = (pixelSum s r0 r1 c0 c1 : Int)) ∧
      (r1 = r0 + 15 → c1 = c0 + 15 → pixelSum s r0 r1 c0 c1 ≤ 57375)

/-- The overflow rule: the largest entry is the total, which is at most `255*ROWS*COLS`, so that no image of at most 8421504
pixels can set `OVF`; a total beyond `2^31-1` sets it and the command still completes, any other total leaves it; no entry
of a table built without `OVF` is negative (41_integ.md R146, R147). -/
def Obligations.OverflowOnlyBeyondTotal : Prop :=
  ∀ s : State, Legal (integBuffers s) s → ∃ t, exec .integ s = .next t ∧ t.status.done = true ∧
    (∀ r ≤ s.x[9].toNat, ∀ c ≤ s.x[10].toNat, pixelSum s 0 r 0 c ≤ pixelSum s 0 s.x[9].toNat 0 s.x[10].toNat) ∧
    pixelSum s 0 s.x[9].toNat 0 s.x[10].toNat ≤ 255 * s.x[9].toNat * s.x[10].toNat ∧
    (s.x[9].toNat * s.x[10].toNat ≤ 8421504 → t.status.ovf = s.status.ovf) ∧
    (pixelSum s 0 s.x[9].toNat 0 s.x[10].toNat > 2147483647 → t.status.ovf = true) ∧
    (pixelSum s 0 s.x[9].toNat 0 s.x[10].toNat ≤ 2147483647 → t.status.ovf = s.status.ovf) ∧
    (t.status.ovf = false → ∀ r ≤ s.x[9].toNat, ∀ c ≤ s.x[10].toNat,
      (t.word (s.x[8].toNat + 4 * (r * (s.x[10].toNat + 1) + c))).toInt = (pixelSum s 0 r 0 c : Int))

/-! ### `ATHR` and `ADAPT` -/

/-- R166: on legal operands `ATHR` completes; each output byte is 0 or 255 by the threshold on the interior and the source
byte elsewhere; nothing but the output, `CMD`, `STATUS`, `ECAUSE` and `EVAL` changes. -/
def Obligations.AthrBinarizesInterior : Prop :=
  ∀ s : State, Legal (athrBuffers s) s →
    ∃ t, exec .athr s = .next t ∧ t = s.completed 0x00000003 t.mem s.status.ovf ∧
      (∀ i < s.x[9].toNat, ∀ j < s.x[10].toNat,
        let S := s.byte (s.x[0].toNat + i * s.x[1].toNat + j)
        let T := fun r c => s.word (s.x[8].toNat + 4 * (r * (s.x[10].toNat + 1) + c))
        let b := (T (i + 8) (j + 8) - T (i - 7) (j + 8) - T (i + 8) (j - 7) + T (i - 7) (j - 7)).toInt
        let m := b.tdiv 225
        t.byte (s.x[4].toNat + i * s.x[5].toNat + j) =
          if (7 : Int) ≤ i ∧ (i : Int) < (s.x[9].toNat : Int) - 8 ∧ (7 : Int) ≤ j ∧ (j : Int) < (s.x[10].toNat : Int) - 8
          then (if (S.toNat : Int) < m - s.x[11].toInt then 0 else 255)
          else S) ∧
      ∀ k, (∀ i < s.x[9].toNat, ∀ j < s.x[10].toNat, k ≠ s.x[4].toNat + i * s.x[5].toNat + j) → t.byte k = s.byte k

/-- R162: the border band, rows `0 .. 6` and `ROWS-8 .. ROWS-1` and columns `0 .. 6` and `COLS-8 .. COLS-1`, is a copy of the
source, byte for byte, in the output of `ATHR` and of `ADAPT`. -/
def Obligations.BorderBandIsCopied : Prop :=
  ∀ (s : State) (i j : Nat), i < s.x[9].toNat → j < s.x[10].toNat →
    (i ≤ 6 ∨ s.x[9].toNat ≤ i + 8 ∨ j ≤ 6 ∨ s.x[10].toNat ≤ j + 8) →
    (Legal (athrBuffers s) s → ∃ t, exec .athr s = .next t ∧
      t.byte (s.x[4].toNat + i * s.x[5].toNat + j) = s.byte (s.x[0].toNat + i * s.x[1].toNat + j)) ∧
    (Legal (adaptBuffers s) s → ∃ t, exec .adapt s = .next t ∧
      t.byte (s.x[4].toNat + i * s.x[5].toNat + j) = s.byte (s.x[0].toNat + i * s.x[1].toNat + j))

/-- `ADAPT` on legal operands completes and is exact: each interior pixel is compared with the true sum of the 225 pixels of
its block divided by 225, less `DELTA`, whatever `OVF` is; the band is copied; memory also holds the complete table; nothing
else changes (42_athr.md R163 to R165, R170, R171). -/
def Obligations.AdaptIsIdealThreshold : Prop :=
  ∀ s : State, Legal (adaptBuffers s) s →
    ∃ t, exec .adapt s = .next t ∧
      t = s.completed 0x00000004 t.mem
        (s.status.ovf || decide (pixelSum s 0 s.x[9].toNat 0 s.x[10].toNat > 2147483647)) ∧
      (∀ i < s.x[9].toNat, ∀ j < s.x[10].toNat,
        let S := s.byte (s.x[0].toNat + i * s.x[1].toNat + j)
        t.byte (s.x[4].toNat + i * s.x[5].toNat + j) =
          if 7 ≤ i ∧ i + 8 < s.x[9].toNat ∧ 7 ≤ j ∧ j + 8 < s.x[10].toNat then
            (if (S.toNat : Int) < ((pixelSum s (i - 7) (i + 8) (j - 7) (j + 8) / 225 : Nat) : Int) - s.x[11].toInt
            then 0 else 255)
          else S) ∧
      (∀ r ≤ s.x[9].toNat, ∀ c ≤ s.x[10].toNat,
        t.word (s.x[8].toNat + 4 * (r * (s.x[10].toNat + 1) + c)) = BitVec.ofNat 32 (pixelSum s 0 r 0 c)) ∧
      ∀ k, (k < s.x[8].toNat ∨ s.x[8].toNat + 4 * ((s.x[9].toNat + 1) * (s.x[10].toNat + 1)) ≤ k) →
        (∀ i < s.x[9].toNat, ∀ j < s.x[10].toNat, k ≠ s.x[4].toNat + i * s.x[5].toNat + j) → t.byte k = s.byte k

/-- `adapt` completes exactly when `integ` and then `athr` both complete, and then it leaves the same memory, `OVF`, `DONE`
and registers; when `integ` completes and the `athr` after it is rejected, `adapt` is rejected as a whole and writes nothing
(42_athr.md R173). -/
def Obligations.AdaptEqualsIntegThenAthr : Prop :=
  ∀ s : State, ∃ t u v, exec .adapt s = .next t ∧ exec .integ s = .next u ∧ exec .athr u = .next v ∧
    (t.status.done = true ↔ u.status.done = true ∧ v.status.done = true) ∧
    (u.status.done = true → v.status.done = true → t.mem = v.mem ∧ t.status = v.status ∧ t.x = v.x) ∧
    (u.status.done = true → v.status.done = false → t.status.err = true ∧ t.mem = s.mem)

/-- A uniform image with `DELTA >= 0`: `ADAPT` gives 255 at every interior pixel and the pixel value on the band
(42_athr.md R175 a). -/
def Obligations.UniformImageBinarizesTo255 : Prop :=
  ∀ (s : State) (v : Byte), Legal (adaptBuffers s) s → 0 ≤ s.x[11].toInt →
    (∀ r < s.x[9].toNat, ∀ c < s.x[10].toNat, s.byte (s.x[0].toNat + r * s.x[1].toNat + c) = v) →
    ∃ t, exec .adapt s = .next t ∧ ∀ i < s.x[9].toNat, ∀ j < s.x[10].toNat,
      t.byte (s.x[4].toNat + i * s.x[5].toNat + j) =
        if 7 ≤ i ∧ i + 8 < s.x[9].toNat ∧ 7 ≤ j ∧ j + 8 < s.x[10].toNat then 255 else v

/-- Raising `DELTA` never turns a 255 of `ATHR` into another byte, and changes no byte of the band (42_athr.md R175 b, d). -/
def Obligations.AthrMonotoneInDelta : Prop :=
  ∀ (s : State) (d : Word), Legal (athrBuffers s) s → s.x[11].toInt ≤ d.toInt →
    ∃ t u, exec .athr s = .next t ∧ exec .athr (s.setReg 11 d) = .next u ∧
      ∀ i < s.x[9].toNat, ∀ j < s.x[10].toNat,
        let k := s.x[4].toNat + i * s.x[5].toNat + j
        (t.byte k = 255 → u.byte k = 255) ∧
        ((i < 7 ∨ s.x[9].toNat ≤ i + 8 ∨ j < 7 ∨ s.x[10].toNat ≤ j + 8) → u.byte k = t.byte k)

/-! ### `RANGE` -/

/-- R191: on legal operands `RANGE` completes; each mask byte is the AND of the two inclusive interval tests over the
integers; nothing but the mask, `CMD`, `STATUS`, `ECAUSE` and `EVAL` changes. -/
def Obligations.RangeMasksIntervals : Prop :=
  ∀ s : State, Legal (rangeBuffers s) s →
    ∃ t, exec .range s = .next t ∧ t = s.completed 0x00000005 t.mem s.status.ovf ∧
      (∀ r < s.x[9].toNat, ∀ c < s.x[10].toNat,
        let u : Int := (s.byte (s.x[0].toNat + r * s.x[1].toNat + c)).toNat
        let v : Int := (s.byte (s.x[2].toNat + r * s.x[3].toNat + c)).toNat
        t.byte (s.x[4].toNat + r * s.x[5].toNat + c) =
          if s.x[12].toInt ≤ u ∧ u ≤ s.x[13].toInt ∧ s.x[14].toInt ≤ v ∧ v ≤ s.x[15].toInt then 0xFF else 0x00) ∧
      ∀ k, (∀ r < s.x[9].toNat, ∀ c < s.x[10].toNat, k ≠ s.x[4].toNat + r * s.x[5].toNat + c) → t.byte k = s.byte k

/-- R193: reversed bounds of either channel are no error and give the all-zero mask, whatever the planes hold; bounds are
never swapped. -/
def Obligations.ReversedBoundsGiveZeroMask : Prop :=
  ∀ s : State, Legal (rangeBuffers s) s → (s.x[12].toInt > s.x[13].toInt ∨ s.x[14].toInt > s.x[15].toInt) →
    ∃ t, exec .range s = .next t ∧ t.status.err = false ∧
      ∀ r < s.x[9].toNat, ∀ c < s.x[10].toNat, t.byte (s.x[4].toNat + r * s.x[5].toNat + c) = 0x00

/-- Widening the intervals turns no 255 into another byte (43_range.md R198 a). -/
def Obligations.RangeMonotoneInBounds : Prop :=
  ∀ (s : State) (lu hu lv hv : Word), Legal (rangeBuffers s) s →
    lu.toInt ≤ s.x[12].toInt → s.x[13].toInt ≤ hu.toInt → lv.toInt ≤ s.x[14].toInt → s.x[15].toInt ≤ hv.toInt →
    ∃ t u, exec .range s = .next t ∧
      exec .range ((((s.setReg 12 lu).setReg 13 hu).setReg 14 lv).setReg 15 hv) = .next u ∧
      ∀ r < s.x[9].toNat, ∀ c < s.x[10].toNat,
        t.byte (s.x[4].toNat + r * s.x[5].toNat + c) = 0xFF → u.byte (s.x[4].toNat + r * s.x[5].toNat + c) = 0xFF

/-- Exchanging the two channels, planes and bounds together, leaves the same memory (43_range.md R198 d). -/
def Obligations.RangeSymmetricInChannels : Prop :=
  ∀ s : State, Legal (rangeBuffers s) s →
    ∃ t u, exec .range s = .next t ∧
      exec .range { s with x :=
        #v[s.x[2], s.x[3], s.x[0], s.x[1], s.x[4], s.x[5], s.x[6], s.x[7], s.x[8], s.x[9], s.x[10], s.x[11],
          s.x[14], s.x[15], s.x[12], s.x[13]] } = .next u ∧ t.status.done = true ∧ u.mem = t.mem

/-- R195: every byte of the mask is written and is `0x00` or `0xFF`, so that nothing of the mask before survives. -/
def Obligations.RangeMaskIsBinary : Prop :=
  ∀ (s : State) (m : Memory), Legal (rangeBuffers s) s →
    (∀ k, (∀ r < s.x[9].toNat, ∀ c < s.x[10].toNat, k ≠ s.x[4].toNat + r * s.x[5].toNat + c) →
      { s with mem := m }.byte k = s.byte k) →
    ∃ t u, exec .range s = .next t ∧ exec .range { s with mem := m } = .next u ∧
      ∀ r < s.x[9].toNat, ∀ c < s.x[10].toNat,
        let k := s.x[4].toNat + r * s.x[5].toNat + c
        (t.byte k = 0x00 ∨ t.byte k = 0xFF) ∧ u.byte k = t.byte k

/-! ### Memory -/

/-- A command leaves every byte but the used bytes of its `out` buffers as it was (20_memory.md R72). -/
def Obligations.CommandsWriteOnlyOutBuffers : Prop :=
  ∀ (s : State) (i : Instr), isCommand i = true → ∃ t, exec i s = .next t ∧
    ∀ k, (∀ b ∈ buffersOf i s, b.dir = .output → ∀ r < b.nrows, ∀ j < b.rowbytes, k ≠ b.base + r * b.stride + j) →
      t.byte k = s.byte k

/-- R64: a word in memory is little-endian, in the host's accesses: `MemWrite(a, 4, v)` puts its bytes at `a` to `a+3`, low
byte first, every other byte stays, and `MemRead(a, 4)` assembles it again. That the host has a word access at every
alignment is the model's choice (log 10), and so is `readData` (log 4). -/
def Obligations.WordsAreLittleEndian : Prop :=
  ∀ (s : State) (a v : Word) (rest : List HostStep),
    s.pending = .memWrite a .word v :: .memRead a .word :: rest → a.toNat + 4 ≤ s.cfg.memSize →
    ∃ t u, step s = .next t ∧ step t = .next u ∧
      t = { s with pending := .memRead a .word :: rest, mem := t.mem } ∧
      t.byte a.toNat = v.extractLsb' 0 8 ∧ t.byte (a.toNat + 1) = v.extractLsb' 8 8 ∧
      t.byte (a.toNat + 2) = v.extractLsb' 16 8 ∧ t.byte (a.toNat + 3) = v.extractLsb' 24 8 ∧
      (∀ k, k < a.toNat ∨ a.toNat + 4 ≤ k → t.byte k = s.byte k) ∧
      u = { t with pending := rest, readData := some v }

/-- A host access stops the machine with a fault when any byte of it does not exist, the word access across the end of
memory among them (20_memory.md R60; that it faults is the model's choice, log 10). -/
def Obligations.AbsentAddressFaults : Prop :=
  ∀ (s : State) (a v : Word) (width : Width) (rest : List HostStep), s.cfg.memSize < a.toNat + width.bytes →
    (s.pending = .memRead a width :: rest → step s = .fault .hostAddressAbsent) ∧
    (s.pending = .memWrite a width v :: rest → step s = .fault .hostAddressAbsent)

/-! ### Reset -/

/-- The registers of `State.reset` have the values of 10_state.md R45, and nothing is written in memory. -/
def Obligations.ResetStateValues : Prop :=
  (∀ i : Fin 16, State.reset.x[i] = if i = 11 then 5 else 0) ∧ State.reset.cmd = 0 ∧
    State.reset.status = { done := false, err := false, ovf := false } ∧ State.reset.ecause = none ∧
    State.reset.eval = 0 ∧ State.reset.mem = []

/-- R290: `rst` gives every register its reset value, from every state, and leaves data memory as it is (R291). -/
def Obligations.RstResetsRegistersKeepsMemory : Prop :=
  ∀ (s : State) (rest : List HostStep), s.pending = .rst :: rest →
    ∃ t, step s = .next t ∧
      (∀ i : Fin 16, t.x[i] = if i = 11 then 5 else 0) ∧ t.cmd = 0 ∧
      t.status = { done := false, err := false, ovf := false } ∧ t.ecause = none ∧ t.eval = 0 ∧
      exec (.rd 0x00) t = .next { t with readData := some 0x53445031 } ∧ t.cfg = s.cfg ∧ ∀ k, t.byte k = s.byte k

/-- Loss of power gives the registers their reset values, forgets memory (every byte is the free value again) and keeps the
parameters (60_exceptions.md R270, 70_reset_and_hazards.md R291; log 5, 13). -/
def Obligations.PowerCycleResetsEverything : Prop :=
  ∀ (s : State) (rest : List HostStep), s.pending = .powerCycle :: rest →
    ∃ t, step s = .next t ∧ t = { State.reset with cfg := s.cfg, epoch := s.epoch + 1, pending := rest, readData := s.readData } ∧
      ∀ k, t.byte k = Config.powerUpByte (s.epoch + 1) k

/-- Commands straight after reset, whatever `MEM_SIZE` is and memory holds (70_reset_and_hazards.md R300): `deint` and
`range` complete and write nothing; `athr` completes and writes nothing if the one-entry table is in memory; `integ` and
`adapt` then write the one word 0 at address 0; with `MEM_SIZE < 4` those three are rejected with `E_BUS`, `EVAL = 8`. -/
def Obligations.CommandsStraightAfterReset : Prop :=
  ∀ (cfg : Config) (m : Memory),
    let s := { State.reset with cfg := cfg, mem := m }
    exec .deint s = .next (s.completed 0x00000001 m false) ∧ exec .range s = .next (s.completed 0x00000005 m false) ∧
    (4 ≤ cfg.memSize → exec .athr s = .next (s.completed 0x00000003 m false) ∧
      ∃ t u, exec .integ s = .next t ∧ exec .adapt s = .next u ∧ t = s.completed 0x00000002 t.mem false ∧
        u = s.completed 0x00000004 t.mem false ∧ t.word 0 = 0 ∧ ∀ k, 4 ≤ k → t.byte k = s.byte k) ∧
    (cfg.memSize < 4 → exec .athr s = .next (s.rejected 0x00000003 .bus 8) ∧
      exec .integ s = .next (s.rejected 0x00000002 .bus 8) ∧ exec .adapt s = .next (s.rejected 0x00000004 .bus 8))

/-! ### The whole machine -/

/-- Every step keeps the invariant: parameters in range, memory canonical and inside `MEM_SIZE`, the status registers
consistent (10_state.md R33 to R35, R40; 20_memory.md R60). -/
def Obligations.StepKeepsInvariant : Prop := ∀ s t : State, Invariant s → step s = .next t → Invariant t

/-- The state after reset meets the invariant (the values of its model fields: log 1, 2, 4, 5). -/
def Obligations.ResetMeetsInvariant : Prop := Invariant State.reset

/-- The machine stops only where the host makes it: a fault is a host access to a data-memory address that does not exist,
a refusal is an access to the window that has no meaning. No command and no illegal word stops it (60_exceptions.md R250,
R251; 44_system.md R213; log 7, 10). -/
def Obligations.MachineStopsOnlyOnHostAccess : Prop :=
  ∀ s : State,
    (∀ f, step s = .fault f → ∃ h rest, s.pending = h :: rest ∧
      ((∃ a width, h = .memRead a width ∧ s.cfg.memSize < a.toNat + width.bytes) ∨
        ∃ a width v, h = .memWrite a width v ∧ s.cfg.memSize < a.toNat + width.bytes)) ∧
    (∀ r, step s = .refused r → r = .windowAccessNoMeaning ∧ ∃ h rest, s.pending = h :: rest ∧
      h.decoded s.cfg = some (.error .windowAccessNoMeaning))

/-- Every step takes the host's next step off its list and keeps the machine's parameters (20_memory.md R76, 00_scope.md R14;
log 1, 2). -/
def Obligations.StepConsumesOneHostStep : Prop :=
  ∀ s t : State, step s = .next t → t.pending = s.pending.tail ∧ t.cfg = s.cfg

/-! ### The host side -/

/-- The host's reference functions: byte `k` of pixel `(y, x)` of the expanded surface of a rescaled mask is 255 for the
opacity byte and else the mask element `(floor(y/2), floor(x/2))` (45_host_pipeline.md R233, R234; log 15). -/
def Obligations.HostSurfaceIsExpandedNearest : Prop :=
  ∀ (alpha R C : Nat) (m : Nat → Nat → Byte),
    (expandSurface alpha (rescale R C m)).length = 4 * (2 * R * (2 * C)) ∧
    ∀ y < 2 * R, ∀ x < 2 * C, ∀ k < 4,
      (expandSurface alpha (rescale R C m))[4 * (y * (2 * C) + x) + k]? =
        some (if k = alpha then 255 else m (y / 2) (x / 2))

/-! ### `OVF` over steps, and the host's accesses to data memory -/

/-- What changes `OVF` in a step of the machine: it is cleared by a host write of 1 to its bit of `STATUS`, by `rst` or by loss
of power, and by nothing else; it is set by `INTEG` and `ADAPT` and by nothing else (10_state.md R33, R38; 70_reset_and_hazards.md
R290, R291; log 13). -/
def Obligations.OverflowFlagChangesInAStep : Prop :=
  ∀ s t : State, step s = .next t →
    (s.status.ovf = true → t.status.ovf = false → ∃ h rest, s.pending = h :: rest ∧
      (h = .rst ∨ h = .powerCycle ∨
        ∃ val : Word, h.decoded s.cfg = some (.ok (.wr 0x08 val)) ∧ val.getLsbD 2 = true)) ∧
    (s.status.ovf = false → t.status.ovf = true → ∃ h rest i, s.pending = h :: rest ∧ h.decoded s.cfg = some (.ok i) ∧
      (i = .integ ∨ i = .adapt ∨ i = .wr 0x04 0x00000002 ∨ i = .wr 0x04 0x00000004))

/-- The host's accesses to data memory one by one: a byte write stores `val[7:0]` at its address and every other byte stays; a
byte read, of a byte of a table entry too, returns the byte zero-extended; a word read, at any alignment, returns the four
bytes from its address, the lowest address in the low byte. A read changes nothing but `readData` (20_memory.md R60, R64,
R73, R76; `readData` and the zero-extension: log 4; alignment: log 10). -/
def Obligations.HostReadsAndWritesDataMemory : Prop :=
  ∀ (s : State) (a v : Word) (rest : List HostStep),
    (s.pending = .memWrite a .byte v :: rest → a.toNat < s.cfg.memSize →
      ∃ t, step s = .next t ∧ t = { s with pending := rest, mem := t.mem } ∧ t.byte a.toNat = v.extractLsb' 0 8 ∧
        ∀ k, k ≠ a.toNat → t.byte k = s.byte k) ∧
    (s.pending = .memRead a .byte :: rest → a.toNat < s.cfg.memSize →
      step s = .next { s with pending := rest, readData := some ((s.byte a.toNat).setWidth 32) }) ∧
    (s.pending = .memRead a .word :: rest → a.toNat + 4 ≤ s.cfg.memSize →
      let w : Word := s.byte (a.toNat + 3) ++ s.byte (a.toNat + 2) ++ s.byte (a.toNat + 1) ++ s.byte a.toNat
      step s = .next { s with pending := rest, readData := some w })
end

