-- ==== Sys2Proof/Laws/Memory.lean ====
section
/-! SUPPORT. What the memory operations do: reading after a write, the canonical form, which addresses they add. -/

namespace Sys2Proof.Machine

namespace Memory

@[simp] theorem get?_nil (k : Nat) : get? [] k = none := rfl

theorem get?_cons (a k : Nat) (b : Byte) (m : Memory) :
    get? ((a, b) :: m) k = if a = k then some b else get? m k := rfl

theorem get?_append (m n : Memory) (k : Nat) : get? (m ++ n) k = (get? m k).or (get? n k) := by
  induction m with
  | nil => simp
  | cons c m ih =>
    obtain ⟨a, b⟩ := c
    simp only [List.cons_append, get?_cons, ih]
    split <;> simp

/-- Filtering by a predicate on addresses keeps or drops each address whole. -/
theorem get?_filter (p : Nat → Bool) (m : Memory) (k : Nat) :
    get? (m.filter fun c => p c.1) k = if p k then get? m k else none := by
  induction m with
  | nil => simp
  | cons c m ih =>
    obtain ⟨a, b⟩ := c
    by_cases ha : p a <;> by_cases hak : a = k <;> simp_all [get?_cons]

theorem get?_cells (a : Nat) (bs : List Byte) (k : Nat) :
    get? (cells a bs) k = if a ≤ k then bs[k - a]? else none := by
  induction bs generalizing a with
  | nil => simp [cells]
  | cons b bs ih =>
    simp only [cells, get?_cons, ih]
    rcases Nat.lt_trichotomy k a with h | h | h
    · simp [show ¬a ≤ k by omega, show ¬a + 1 ≤ k by omega, show a ≠ k by omega]
    · simp [h]
    · simp [show a ≤ k by omega, show a + 1 ≤ k by omega, show a ≠ k by omega,
        show k - a = (k - (a + 1)) + 1 by omega]

/-- Read after write: the bytes of the run, and every other address as before. -/
theorem get?_writeRun (m : Memory) (a : Nat) (bs : List Byte) (k : Nat) :
    get? (m.writeRun a bs) k = if a ≤ k ∧ k < a + bs.length then bs[k - a]? else get? m k := by
  have hlo := get?_filter (fun j => decide (j < a)) m k
  have hhi := get?_filter (fun j => decide (a + bs.length ≤ j)) m k
  simp only [decide_eq_true_eq] at hlo hhi
  simp only [writeRun, get?_append, get?_cells, hlo, hhi]
  by_cases h1 : k < a
  · simp [h1, show ¬a ≤ k by omega, show ¬a + bs.length ≤ k by omega]
  · by_cases h2 : k < a + bs.length
    · simp [h1, h2, show a ≤ k by omega, show ¬a + bs.length ≤ k by omega]
    · simp [h1, h2, show a ≤ k by omega, show a + bs.length ≤ k by omega,
        List.getElem?_eq_none (show bs.length ≤ k - a by omega)]

theorem get?_writeRun_of_mem (m : Memory) (a : Nat) (bs : List Byte) (i : Nat) (h : i < bs.length) :
    get? (m.writeRun a bs) (a + i) = some bs[i] := by
  simp [get?_writeRun, h]

theorem get?_writeRun_of_not_mem (m : Memory) (a : Nat) (bs : List Byte) (k : Nat) (h : k < a ∨ a + bs.length ≤ k) :
    get? (m.writeRun a bs) k = get? m k := by
  rw [get?_writeRun, if_neg (by omega)]

/-- An address that no row covers reads as before. -/
theorem get?_writeRows_of_not_mem (m : Memory) (a stride : Nat) (rows : List (List Byte)) (k : Nat)
    (h : ∀ (r : Nat) (hr : r < rows.length), k < a + r * stride ∨ a + r * stride + rows[r].length ≤ k) :
    get? (m.writeRows a stride rows) k = get? m k := by
  induction rows generalizing m a with
  | nil => rfl
  | cons row rows ih =>
    rw [writeRows, ih]
    · have h0 := h 0 (by simp)
      simp only [List.getElem_cons_zero, Nat.zero_mul, Nat.add_zero] at h0
      exact get?_writeRun_of_not_mem _ _ _ _ h0
    · intro r hr
      have := h (r + 1) (by simpa using hr)
      simp only [Nat.add_mul, Nat.one_mul, List.getElem_cons_succ] at this
      omega

/-- The bytes of the rows, where no row is longer than the stride (20_memory.md R66, R69). -/
theorem get?_writeRows_of_mem (m : Memory) (a stride : Nat) (rows : List (List Byte))
    (hlen : ∀ row ∈ rows, row.length ≤ stride) (r c : Nat) (hr : r < rows.length) (hc : c < rows[r].length) :
    get? (m.writeRows a stride rows) (a + r * stride + c) = some rows[r][c] := by
  induction rows generalizing m a r with
  | nil => simp at hr
  | cons row rows ih =>
    rw [writeRows]
    cases r with
    | zero =>
      have hcs : row.length ≤ stride := hlen row (by simp)
      simp only [List.getElem_cons_zero] at hc
      rw [get?_writeRows_of_not_mem]
      · simpa using get?_writeRun_of_mem m a row c hc
      · intro r' _
        left
        have := Nat.le_add_left stride (r' * stride)
        omega
    | succ r =>
      have := ih (m.writeRun a row) (a + stride) (fun x hx => hlen x (by simp [hx])) r (by simpa using hr) (by simpa using hc)
      simpa [Nat.add_mul, Nat.add_assoc, Nat.add_comm, Nat.add_left_comm] using this

/-! ### The canonical form -/

theorem wf_iff (m : Memory) : m.wf = true ↔ m.Pairwise fun c d => c.1 < d.1 := by simp [wf]

theorem mem_cells (a : Nat) (bs : List Byte) (c : Host.Cell) (h : c ∈ cells a bs) : a ≤ c.1 ∧ c.1 < a + bs.length := by
  induction bs generalizing a with
  | nil => simp [cells] at h
  | cons b bs ih =>
    simp only [cells, List.mem_cons] at h
    rcases h with rfl | h
    · simp
    · have := ih _ h
      simp only [List.length_cons]
      omega

theorem pairwise_cells (a : Nat) (bs : List Byte) : (cells a bs).Pairwise fun c d => c.1 < d.1 := by
  induction bs generalizing a with
  | nil => simp [cells]
  | cons b bs ih =>
    rw [cells, List.pairwise_cons]
    exact ⟨fun c hc => by have := mem_cells _ _ _ hc; simp only; omega, ih _⟩

theorem wf_nil : wf [] = true := by decide

/-- A write keeps the canonical form. -/
theorem wf_writeRun (m : Memory) (a : Nat) (bs : List Byte) (h : m.wf = true) : (m.writeRun a bs).wf = true := by
  rw [wf_iff] at h ⊢
  simp only [writeRun, List.append_assoc, List.pairwise_append]
  refine ⟨h.filter _, ⟨pairwise_cells _ _, h.filter _, ?_⟩, ?_⟩
  · intro c hc d hd
    have := mem_cells _ _ _ hc
    simp only [List.mem_filter, decide_eq_true_eq] at hd
    omega
  · intro c hc d hd
    simp only [List.mem_filter, decide_eq_true_eq, List.mem_append] at hc hd
    rcases hd with hd | hd
    · have := mem_cells _ _ _ hd
      omega
    · omega

theorem wf_writeRows (m : Memory) (a stride : Nat) (rows : List (List Byte)) (h : m.wf = true) :
    (m.writeRows a stride rows).wf = true := by
  induction rows generalizing m a with
  | nil => exact h
  | cons row rows ih => exact ih _ _ (wf_writeRun _ _ _ h)

/-- Every address listed after a write was listed before or lies in the run. -/
theorem mem_writeRun (m : Memory) (a : Nat) (bs : List Byte) (c : Host.Cell) (h : c ∈ m.writeRun a bs) :
    c ∈ m ∨ a ≤ c.1 ∧ c.1 < a + bs.length := by
  simp only [writeRun, List.mem_append, List.mem_filter] at h
  rcases h with (h | h) | h
  · exact .inl h.1
  · exact .inr (mem_cells _ _ _ h)
  · exact .inl h.1

/-- Writes below a bound add no address at or above it. -/
theorem mem_writeRows_lt (m : Memory) (a stride bound : Nat) (rows : List (List Byte)) (hm : ∀ c ∈ m, c.1 < bound)
    (hb : ∀ (r : Nat) (hr : r < rows.length), rows[r].length = 0 ∨ a + r * stride + rows[r].length ≤ bound) :
    ∀ c ∈ m.writeRows a stride rows, c.1 < bound := by
  induction rows generalizing m a with
  | nil => exact hm
  | cons row rows ih =>
    rw [writeRows]
    refine ih _ _ (fun c hc => ?_) (fun r hr => ?_)
    · rcases mem_writeRun _ _ _ _ hc with h | h
      · exact hm c h
      · have := hb 0 (by simp)
        simp only [List.getElem_cons_zero, Nat.zero_mul] at this
        omega
    · have := hb (r + 1) (by simpa using hr)
      simpa [Nat.add_mul, Nat.add_assoc, Nat.add_comm, Nat.add_left_comm] using this

end Memory

/-! ### Images -/

@[simp] theorem imageOf_length (nrows ncols : Nat) (f : Nat → Nat → Byte) : (imageOf nrows ncols f).length = nrows := by
  simp [imageOf]

@[simp] theorem imageOf_getElem (nrows ncols : Nat) (f : Nat → Nat → Byte) (r : Nat)
    (h : r < (imageOf nrows ncols f).length) : (imageOf nrows ncols f)[r] = (List.range ncols).map fun c => f r c := by
  simp [imageOf]

theorem imageOf_row_length (nrows ncols : Nat) (f : Nat → Nat → Byte) (row : List Byte)
    (h : row ∈ imageOf nrows ncols f) : row.length = ncols := by
  simp only [imageOf, List.mem_map] at h
  obtain ⟨r, -, rfl⟩ := h
  simp

/-- The element `(r, c)` of an image written to a buffer. -/
theorem get?_writeRows_imageOf (m : Memory) (a stride nrows ncols : Nat) (f : Nat → Nat → Byte) (h : ncols ≤ stride)
    (r c : Nat) (hr : r < nrows) (hc : c < ncols) :
    Memory.get? (m.writeRows a stride (imageOf nrows ncols f)) (a + r * stride + c) = some (f r c) := by
  rw [Memory.get?_writeRows_of_mem _ _ _ _ (fun row hrow => (imageOf_row_length _ _ _ _ hrow).le.trans h) r c
    (by simpa using hr) (by simpa using hc)]
  simp

/-- An address of no element reads as before. -/
theorem get?_writeRows_imageOf_of_ne (m : Memory) (a stride nrows ncols : Nat) (f : Nat → Nat → Byte) (k : Nat)
    (h : ∀ r < nrows, ∀ c < ncols, k ≠ a + r * stride + c) :
    Memory.get? (m.writeRows a stride (imageOf nrows ncols f)) k = Memory.get? m k := by
  refine Memory.get?_writeRows_of_not_mem _ _ _ _ _ fun r hr => ?_
  simp only [imageOf_getElem, List.length_map, List.length_range]
  simp only [imageOf_length] at hr
  by_contra hk
  exact h r hr (k - (a + r * stride)) (by omega) (by omega)

/-! ### Words and bytes -/

/-- Assembling the four bytes of a word gives the word back (20_memory.md R64). -/
theorem ofLeBytes_leBytes (v : Word) :
    ofLeBytes (v.extractLsb' 0 8) (v.extractLsb' 8 8) (v.extractLsb' 16 8) (v.extractLsb' 24 8) = v := by
  apply BitVec.eq_of_getLsbD_eq
  intro i hi
  simp only [ofLeBytes, BitVec.getLsbD_append, BitVec.getLsbD_extractLsb']
  split
  · simp_all
  · split
    · rw [show 8 + (i - 8) = i by omega]
      simp; omega
    · split
      · rw [show 16 + (i - 8 - 8) = i by omega]
        simp; omega
      · rw [show 24 + (i - 8 - 8 - 8) = i by omega]
        simp; omega

@[simp] theorem leBytes_length (v : Word) : (leBytes v).length = 4 := rfl

end Sys2Proof.Machine
end

