-- ==== Sys2Proof/Laws/State.lean ====
section
/-! SUPPORT. One lemma per field per update of the state, and per reading of an operand register: what each update leaves. -/

namespace Sys2Proof.Machine.State

/-! ### `setMem` -/

@[simp] theorem setMem_cfg (s : State) (m : Memory) : (s.setMem m).cfg = s.cfg := rfl
@[simp] theorem setMem_x (s : State) (m : Memory) : (s.setMem m).x = s.x := rfl
@[simp] theorem setMem_cmd (s : State) (m : Memory) : (s.setMem m).cmd = s.cmd := rfl
@[simp] theorem setMem_status (s : State) (m : Memory) : (s.setMem m).status = s.status := rfl
@[simp] theorem setMem_ecause (s : State) (m : Memory) : (s.setMem m).ecause = s.ecause := rfl
@[simp] theorem setMem_eval (s : State) (m : Memory) : (s.setMem m).eval = s.eval := rfl
@[simp] theorem setMem_mem (s : State) (m : Memory) : (s.setMem m).mem = m := rfl
@[simp] theorem setMem_epoch (s : State) (m : Memory) : (s.setMem m).epoch = s.epoch := rfl
@[simp] theorem setMem_pending (s : State) (m : Memory) : (s.setMem m).pending = s.pending := rfl
@[simp] theorem setMem_readData (s : State) (m : Memory) : (s.setMem m).readData = s.readData := rfl

/-! ### `setStatus` -/

@[simp] theorem setStatus_cfg (s : State) (f : Status) : (s.setStatus f).cfg = s.cfg := rfl
@[simp] theorem setStatus_x (s : State) (f : Status) : (s.setStatus f).x = s.x := rfl
@[simp] theorem setStatus_cmd (s : State) (f : Status) : (s.setStatus f).cmd = s.cmd := rfl
@[simp] theorem setStatus_status (s : State) (f : Status) : (s.setStatus f).status = f := rfl
@[simp] theorem setStatus_ecause (s : State) (f : Status) : (s.setStatus f).ecause = s.ecause := rfl
@[simp] theorem setStatus_eval (s : State) (f : Status) : (s.setStatus f).eval = s.eval := rfl
@[simp] theorem setStatus_mem (s : State) (f : Status) : (s.setStatus f).mem = s.mem := rfl
@[simp] theorem setStatus_epoch (s : State) (f : Status) : (s.setStatus f).epoch = s.epoch := rfl
@[simp] theorem setStatus_pending (s : State) (f : Status) : (s.setStatus f).pending = s.pending := rfl
@[simp] theorem setStatus_readData (s : State) (f : Status) : (s.setStatus f).readData = s.readData := rfl

/-! ### `setReadData` -/

@[simp] theorem setReadData_cfg (s : State) (w : Word) : (s.setReadData w).cfg = s.cfg := rfl
@[simp] theorem setReadData_x (s : State) (w : Word) : (s.setReadData w).x = s.x := rfl
@[simp] theorem setReadData_cmd (s : State) (w : Word) : (s.setReadData w).cmd = s.cmd := rfl
@[simp] theorem setReadData_status (s : State) (w : Word) : (s.setReadData w).status = s.status := rfl
@[simp] theorem setReadData_ecause (s : State) (w : Word) : (s.setReadData w).ecause = s.ecause := rfl
@[simp] theorem setReadData_eval (s : State) (w : Word) : (s.setReadData w).eval = s.eval := rfl
@[simp] theorem setReadData_mem (s : State) (w : Word) : (s.setReadData w).mem = s.mem := rfl
@[simp] theorem setReadData_epoch (s : State) (w : Word) : (s.setReadData w).epoch = s.epoch := rfl
@[simp] theorem setReadData_pending (s : State) (w : Word) : (s.setReadData w).pending = s.pending := rfl
@[simp] theorem setReadData_readData (s : State) (w : Word) : (s.setReadData w).readData = some w := rfl

/-! ### `setPending` -/

@[simp] theorem setPending_cfg (s : State) (p : List HostStep) : (s.setPending p).cfg = s.cfg := rfl
@[simp] theorem setPending_x (s : State) (p : List HostStep) : (s.setPending p).x = s.x := rfl
@[simp] theorem setPending_cmd (s : State) (p : List HostStep) : (s.setPending p).cmd = s.cmd := rfl
@[simp] theorem setPending_status (s : State) (p : List HostStep) : (s.setPending p).status = s.status := rfl
@[simp] theorem setPending_ecause (s : State) (p : List HostStep) : (s.setPending p).ecause = s.ecause := rfl
@[simp] theorem setPending_eval (s : State) (p : List HostStep) : (s.setPending p).eval = s.eval := rfl
@[simp] theorem setPending_mem (s : State) (p : List HostStep) : (s.setPending p).mem = s.mem := rfl
@[simp] theorem setPending_epoch (s : State) (p : List HostStep) : (s.setPending p).epoch = s.epoch := rfl
@[simp] theorem setPending_pending (s : State) (p : List HostStep) : (s.setPending p).pending = p := rfl
@[simp] theorem setPending_readData (s : State) (p : List HostStep) : (s.setPending p).readData = s.readData := rfl

/-! ### `setReg` -/

@[simp] theorem setReg_cfg (s : State) (i : Fin 16) (v : Word) : (s.setReg i v).cfg = s.cfg := rfl
@[simp] theorem setReg_x (s : State) (i : Fin 16) (v : Word) : (s.setReg i v).x = s.x.set i v := rfl
@[simp] theorem setReg_cmd (s : State) (i : Fin 16) (v : Word) : (s.setReg i v).cmd = s.cmd := rfl
@[simp] theorem setReg_status (s : State) (i : Fin 16) (v : Word) : (s.setReg i v).status = s.status := rfl
@[simp] theorem setReg_ecause (s : State) (i : Fin 16) (v : Word) : (s.setReg i v).ecause = s.ecause := rfl
@[simp] theorem setReg_eval (s : State) (i : Fin 16) (v : Word) : (s.setReg i v).eval = s.eval := rfl
@[simp] theorem setReg_mem (s : State) (i : Fin 16) (v : Word) : (s.setReg i v).mem = s.mem := rfl
@[simp] theorem setReg_epoch (s : State) (i : Fin 16) (v : Word) : (s.setReg i v).epoch = s.epoch := rfl
@[simp] theorem setReg_pending (s : State) (i : Fin 16) (v : Word) : (s.setReg i v).pending = s.pending := rfl
@[simp] theorem setReg_readData (s : State) (i : Fin 16) (v : Word) : (s.setReg i v).readData = s.readData := rfl

/-! ### `writeBytes` -/

@[simp] theorem writeBytes_cfg (s : State) (a : Nat) (bs : List Byte) : (s.writeBytes a bs).cfg = s.cfg := rfl
@[simp] theorem writeBytes_x (s : State) (a : Nat) (bs : List Byte) : (s.writeBytes a bs).x = s.x := rfl
@[simp] theorem writeBytes_cmd (s : State) (a : Nat) (bs : List Byte) : (s.writeBytes a bs).cmd = s.cmd := rfl
@[simp] theorem writeBytes_status (s : State) (a : Nat) (bs : List Byte) : (s.writeBytes a bs).status = s.status := rfl
@[simp] theorem writeBytes_ecause (s : State) (a : Nat) (bs : List Byte) : (s.writeBytes a bs).ecause = s.ecause := rfl
@[simp] theorem writeBytes_eval (s : State) (a : Nat) (bs : List Byte) : (s.writeBytes a bs).eval = s.eval := rfl
@[simp] theorem writeBytes_mem (s : State) (a : Nat) (bs : List Byte) : (s.writeBytes a bs).mem = s.mem.writeRun a bs := rfl
@[simp] theorem writeBytes_epoch (s : State) (a : Nat) (bs : List Byte) : (s.writeBytes a bs).epoch = s.epoch := rfl
@[simp] theorem writeBytes_pending (s : State) (a : Nat) (bs : List Byte) : (s.writeBytes a bs).pending = s.pending := rfl
@[simp] theorem writeBytes_readData (s : State) (a : Nat) (bs : List Byte) : (s.writeBytes a bs).readData = s.readData := rfl

/-! ### `beginCommand` -/

@[simp] theorem beginCommand_cfg (s : State) (w : Word) : (s.beginCommand w).cfg = s.cfg := rfl
@[simp] theorem beginCommand_x (s : State) (w : Word) : (s.beginCommand w).x = s.x := rfl
@[simp] theorem beginCommand_cmd (s : State) (w : Word) : (s.beginCommand w).cmd = w := rfl
@[simp] theorem beginCommand_status (s : State) (w : Word) : (s.beginCommand w).status = s.status.issued := rfl
@[simp] theorem beginCommand_ecause (s : State) (w : Word) : (s.beginCommand w).ecause = none := rfl
@[simp] theorem beginCommand_eval (s : State) (w : Word) : (s.beginCommand w).eval = 0 := rfl
@[simp] theorem beginCommand_mem (s : State) (w : Word) : (s.beginCommand w).mem = s.mem := rfl
@[simp] theorem beginCommand_epoch (s : State) (w : Word) : (s.beginCommand w).epoch = s.epoch := rfl
@[simp] theorem beginCommand_pending (s : State) (w : Word) : (s.beginCommand w).pending = s.pending := rfl
@[simp] theorem beginCommand_readData (s : State) (w : Word) : (s.beginCommand w).readData = s.readData := rfl

/-! ### `raise` -/

@[simp] theorem raise_cfg (s : State) (e : CmdError) (info : Word) : (s.raise e info).cfg = s.cfg := rfl
@[simp] theorem raise_x (s : State) (e : CmdError) (info : Word) : (s.raise e info).x = s.x := rfl
@[simp] theorem raise_cmd (s : State) (e : CmdError) (info : Word) : (s.raise e info).cmd = s.cmd := rfl
@[simp] theorem raise_status (s : State) (e : CmdError) (info : Word) : (s.raise e info).status = s.status.rejected := rfl
@[simp] theorem raise_ecause (s : State) (e : CmdError) (info : Word) : (s.raise e info).ecause = some e := rfl
@[simp] theorem raise_eval (s : State) (e : CmdError) (info : Word) : (s.raise e info).eval = info := rfl
@[simp] theorem raise_mem (s : State) (e : CmdError) (info : Word) : (s.raise e info).mem = s.mem := rfl
@[simp] theorem raise_epoch (s : State) (e : CmdError) (info : Word) : (s.raise e info).epoch = s.epoch := rfl
@[simp] theorem raise_pending (s : State) (e : CmdError) (info : Word) : (s.raise e info).pending = s.pending := rfl
@[simp] theorem raise_readData (s : State) (e : CmdError) (info : Word) : (s.raise e info).readData = s.readData := rfl

/-! ### `completeCommand` -/

@[simp] theorem completeCommand_cfg (s : State) : (s.completeCommand).cfg = s.cfg := rfl
@[simp] theorem completeCommand_x (s : State) : (s.completeCommand).x = s.x := rfl
@[simp] theorem completeCommand_cmd (s : State) : (s.completeCommand).cmd = s.cmd := rfl
@[simp] theorem completeCommand_status (s : State) : (s.completeCommand).status = s.status.completed := rfl
@[simp] theorem completeCommand_ecause (s : State) : (s.completeCommand).ecause = s.ecause := rfl
@[simp] theorem completeCommand_eval (s : State) : (s.completeCommand).eval = s.eval := rfl
@[simp] theorem completeCommand_mem (s : State) : (s.completeCommand).mem = s.mem := rfl
@[simp] theorem completeCommand_epoch (s : State) : (s.completeCommand).epoch = s.epoch := rfl
@[simp] theorem completeCommand_pending (s : State) : (s.completeCommand).pending = s.pending := rfl
@[simp] theorem completeCommand_readData (s : State) : (s.completeCommand).readData = s.readData := rfl

/-! ### `applyRst` -/

@[simp] theorem applyRst_cfg (s : State) : (s.applyRst).cfg = s.cfg := rfl
@[simp] theorem applyRst_x (s : State) : (s.applyRst).x = resetRegisters := rfl
@[simp] theorem applyRst_cmd (s : State) : (s.applyRst).cmd = 0 := rfl
@[simp] theorem applyRst_status (s : State) : (s.applyRst).status = { done := false, err := false, ovf := false } := rfl
@[simp] theorem applyRst_ecause (s : State) : (s.applyRst).ecause = none := rfl
@[simp] theorem applyRst_eval (s : State) : (s.applyRst).eval = 0 := rfl
@[simp] theorem applyRst_mem (s : State) : (s.applyRst).mem = s.mem := rfl
@[simp] theorem applyRst_epoch (s : State) : (s.applyRst).epoch = s.epoch := rfl
@[simp] theorem applyRst_pending (s : State) : (s.applyRst).pending = s.pending := rfl
@[simp] theorem applyRst_readData (s : State) : (s.applyRst).readData = s.readData := rfl

/-! ### `applyPowerCycle` -/

@[simp] theorem applyPowerCycle_cfg (s : State) : (s.applyPowerCycle).cfg = s.cfg := rfl
@[simp] theorem applyPowerCycle_x (s : State) : (s.applyPowerCycle).x = resetRegisters := rfl
@[simp] theorem applyPowerCycle_cmd (s : State) : (s.applyPowerCycle).cmd = 0 := rfl
@[simp] theorem applyPowerCycle_status (s : State) : (s.applyPowerCycle).status = { done := false, err := false, ovf := false } := rfl
@[simp] theorem applyPowerCycle_ecause (s : State) : (s.applyPowerCycle).ecause = none := rfl
@[simp] theorem applyPowerCycle_eval (s : State) : (s.applyPowerCycle).eval = 0 := rfl
@[simp] theorem applyPowerCycle_mem (s : State) : (s.applyPowerCycle).mem = [] := rfl
@[simp] theorem applyPowerCycle_epoch (s : State) : (s.applyPowerCycle).epoch = s.epoch + 1 := rfl
@[simp] theorem applyPowerCycle_pending (s : State) : (s.applyPowerCycle).pending = s.pending := rfl
@[simp] theorem applyPowerCycle_readData (s : State) : (s.applyPowerCycle).readData = s.readData := rfl

/-! ### Readings of the operand registers: they depend on `x` alone -/

@[simp] theorem setMem_src0Base (s : State) (m : Memory) : (s.setMem m).src0Base = s.src0Base := rfl
@[simp] theorem setMem_src0Stride (s : State) (m : Memory) : (s.setMem m).src0Stride = s.src0Stride := rfl
@[simp] theorem setMem_src1Base (s : State) (m : Memory) : (s.setMem m).src1Base = s.src1Base := rfl
@[simp] theorem setMem_src1Stride (s : State) (m : Memory) : (s.setMem m).src1Stride = s.src1Stride := rfl
@[simp] theorem setMem_dst0Base (s : State) (m : Memory) : (s.setMem m).dst0Base = s.dst0Base := rfl
@[simp] theorem setMem_dst0Stride (s : State) (m : Memory) : (s.setMem m).dst0Stride = s.dst0Stride := rfl
@[simp] theorem setMem_dst1Base (s : State) (m : Memory) : (s.setMem m).dst1Base = s.dst1Base := rfl
@[simp] theorem setMem_dst1Stride (s : State) (m : Memory) : (s.setMem m).dst1Stride = s.dst1Stride := rfl
@[simp] theorem setMem_tabBase (s : State) (m : Memory) : (s.setMem m).tabBase = s.tabBase := rfl
@[simp] theorem setMem_rows (s : State) (m : Memory) : (s.setMem m).rows = s.rows := rfl
@[simp] theorem setMem_cols (s : State) (m : Memory) : (s.setMem m).cols = s.cols := rfl
@[simp] theorem setMem_delta (s : State) (m : Memory) : (s.setMem m).delta = s.delta := rfl
@[simp] theorem setMem_lowU (s : State) (m : Memory) : (s.setMem m).lowU = s.lowU := rfl
@[simp] theorem setMem_highU (s : State) (m : Memory) : (s.setMem m).highU = s.highU := rfl
@[simp] theorem setMem_lowV (s : State) (m : Memory) : (s.setMem m).lowV = s.lowV := rfl
@[simp] theorem setMem_highV (s : State) (m : Memory) : (s.setMem m).highV = s.highV := rfl

@[simp] theorem setStatus_src0Base (s : State) (f : Status) : (s.setStatus f).src0Base = s.src0Base := rfl
@[simp] theorem setStatus_src0Stride (s : State) (f : Status) : (s.setStatus f).src0Stride = s.src0Stride := rfl
@[simp] theorem setStatus_src1Base (s : State) (f : Status) : (s.setStatus f).src1Base = s.src1Base := rfl
@[simp] theorem setStatus_src1Stride (s : State) (f : Status) : (s.setStatus f).src1Stride = s.src1Stride := rfl
@[simp] theorem setStatus_dst0Base (s : State) (f : Status) : (s.setStatus f).dst0Base = s.dst0Base := rfl
@[simp] theorem setStatus_dst0Stride (s : State) (f : Status) : (s.setStatus f).dst0Stride = s.dst0Stride := rfl
@[simp] theorem setStatus_dst1Base (s : State) (f : Status) : (s.setStatus f).dst1Base = s.dst1Base := rfl
@[simp] theorem setStatus_dst1Stride (s : State) (f : Status) : (s.setStatus f).dst1Stride = s.dst1Stride := rfl
@[simp] theorem setStatus_tabBase (s : State) (f : Status) : (s.setStatus f).tabBase = s.tabBase := rfl
@[simp] theorem setStatus_rows (s : State) (f : Status) : (s.setStatus f).rows = s.rows := rfl
@[simp] theorem setStatus_cols (s : State) (f : Status) : (s.setStatus f).cols = s.cols := rfl
@[simp] theorem setStatus_delta (s : State) (f : Status) : (s.setStatus f).delta = s.delta := rfl
@[simp] theorem setStatus_lowU (s : State) (f : Status) : (s.setStatus f).lowU = s.lowU := rfl
@[simp] theorem setStatus_highU (s : State) (f : Status) : (s.setStatus f).highU = s.highU := rfl
@[simp] theorem setStatus_lowV (s : State) (f : Status) : (s.setStatus f).lowV = s.lowV := rfl
@[simp] theorem setStatus_highV (s : State) (f : Status) : (s.setStatus f).highV = s.highV := rfl

@[simp] theorem setReadData_src0Base (s : State) (w : Word) : (s.setReadData w).src0Base = s.src0Base := rfl
@[simp] theorem setReadData_src0Stride (s : State) (w : Word) : (s.setReadData w).src0Stride = s.src0Stride := rfl
@[simp] theorem setReadData_src1Base (s : State) (w : Word) : (s.setReadData w).src1Base = s.src1Base := rfl
@[simp] theorem setReadData_src1Stride (s : State) (w : Word) : (s.setReadData w).src1Stride = s.src1Stride := rfl
@[simp] theorem setReadData_dst0Base (s : State) (w : Word) : (s.setReadData w).dst0Base = s.dst0Base := rfl
@[simp] theorem setReadData_dst0Stride (s : State) (w : Word) : (s.setReadData w).dst0Stride = s.dst0Stride := rfl
@[simp] theorem setReadData_dst1Base (s : State) (w : Word) : (s.setReadData w).dst1Base = s.dst1Base := rfl
@[simp] theorem setReadData_dst1Stride (s : State) (w : Word) : (s.setReadData w).dst1Stride = s.dst1Stride := rfl
@[simp] theorem setReadData_tabBase (s : State) (w : Word) : (s.setReadData w).tabBase = s.tabBase := rfl
@[simp] theorem setReadData_rows (s : State) (w : Word) : (s.setReadData w).rows = s.rows := rfl
@[simp] theorem setReadData_cols (s : State) (w : Word) : (s.setReadData w).cols = s.cols := rfl
@[simp] theorem setReadData_delta (s : State) (w : Word) : (s.setReadData w).delta = s.delta := rfl
@[simp] theorem setReadData_lowU (s : State) (w : Word) : (s.setReadData w).lowU = s.lowU := rfl
@[simp] theorem setReadData_highU (s : State) (w : Word) : (s.setReadData w).highU = s.highU := rfl
@[simp] theorem setReadData_lowV (s : State) (w : Word) : (s.setReadData w).lowV = s.lowV := rfl
@[simp] theorem setReadData_highV (s : State) (w : Word) : (s.setReadData w).highV = s.highV := rfl

@[simp] theorem setPending_src0Base (s : State) (p : List HostStep) : (s.setPending p).src0Base = s.src0Base := rfl
@[simp] theorem setPending_src0Stride (s : State) (p : List HostStep) : (s.setPending p).src0Stride = s.src0Stride := rfl
@[simp] theorem setPending_src1Base (s : State) (p : List HostStep) : (s.setPending p).src1Base = s.src1Base := rfl
@[simp] theorem setPending_src1Stride (s : State) (p : List HostStep) : (s.setPending p).src1Stride = s.src1Stride := rfl
@[simp] theorem setPending_dst0Base (s : State) (p : List HostStep) : (s.setPending p).dst0Base = s.dst0Base := rfl
@[simp] theorem setPending_dst0Stride (s : State) (p : List HostStep) : (s.setPending p).dst0Stride = s.dst0Stride := rfl
@[simp] theorem setPending_dst1Base (s : State) (p : List HostStep) : (s.setPending p).dst1Base = s.dst1Base := rfl
@[simp] theorem setPending_dst1Stride (s : State) (p : List HostStep) : (s.setPending p).dst1Stride = s.dst1Stride := rfl
@[simp] theorem setPending_tabBase (s : State) (p : List HostStep) : (s.setPending p).tabBase = s.tabBase := rfl
@[simp] theorem setPending_rows (s : State) (p : List HostStep) : (s.setPending p).rows = s.rows := rfl
@[simp] theorem setPending_cols (s : State) (p : List HostStep) : (s.setPending p).cols = s.cols := rfl
@[simp] theorem setPending_delta (s : State) (p : List HostStep) : (s.setPending p).delta = s.delta := rfl
@[simp] theorem setPending_lowU (s : State) (p : List HostStep) : (s.setPending p).lowU = s.lowU := rfl
@[simp] theorem setPending_highU (s : State) (p : List HostStep) : (s.setPending p).highU = s.highU := rfl
@[simp] theorem setPending_lowV (s : State) (p : List HostStep) : (s.setPending p).lowV = s.lowV := rfl
@[simp] theorem setPending_highV (s : State) (p : List HostStep) : (s.setPending p).highV = s.highV := rfl

@[simp] theorem beginCommand_src0Base (s : State) (w : Word) : (s.beginCommand w).src0Base = s.src0Base := rfl
@[simp] theorem beginCommand_src0Stride (s : State) (w : Word) : (s.beginCommand w).src0Stride = s.src0Stride := rfl
@[simp] theorem beginCommand_src1Base (s : State) (w : Word) : (s.beginCommand w).src1Base = s.src1Base := rfl
@[simp] theorem beginCommand_src1Stride (s : State) (w : Word) : (s.beginCommand w).src1Stride = s.src1Stride := rfl
@[simp] theorem beginCommand_dst0Base (s : State) (w : Word) : (s.beginCommand w).dst0Base = s.dst0Base := rfl
@[simp] theorem beginCommand_dst0Stride (s : State) (w : Word) : (s.beginCommand w).dst0Stride = s.dst0Stride := rfl
@[simp] theorem beginCommand_dst1Base (s : State) (w : Word) : (s.beginCommand w).dst1Base = s.dst1Base := rfl
@[simp] theorem beginCommand_dst1Stride (s : State) (w : Word) : (s.beginCommand w).dst1Stride = s.dst1Stride := rfl
@[simp] theorem beginCommand_tabBase (s : State) (w : Word) : (s.beginCommand w).tabBase = s.tabBase := rfl
@[simp] theorem beginCommand_rows (s : State) (w : Word) : (s.beginCommand w).rows = s.rows := rfl
@[simp] theorem beginCommand_cols (s : State) (w : Word) : (s.beginCommand w).cols = s.cols := rfl
@[simp] theorem beginCommand_delta (s : State) (w : Word) : (s.beginCommand w).delta = s.delta := rfl
@[simp] theorem beginCommand_lowU (s : State) (w : Word) : (s.beginCommand w).lowU = s.lowU := rfl
@[simp] theorem beginCommand_highU (s : State) (w : Word) : (s.beginCommand w).highU = s.highU := rfl
@[simp] theorem beginCommand_lowV (s : State) (w : Word) : (s.beginCommand w).lowV = s.lowV := rfl
@[simp] theorem beginCommand_highV (s : State) (w : Word) : (s.beginCommand w).highV = s.highV := rfl

@[simp] theorem raise_src0Base (s : State) (e : CmdError) (info : Word) : (s.raise e info).src0Base = s.src0Base := rfl
@[simp] theorem raise_src0Stride (s : State) (e : CmdError) (info : Word) : (s.raise e info).src0Stride = s.src0Stride := rfl
@[simp] theorem raise_src1Base (s : State) (e : CmdError) (info : Word) : (s.raise e info).src1Base = s.src1Base := rfl
@[simp] theorem raise_src1Stride (s : State) (e : CmdError) (info : Word) : (s.raise e info).src1Stride = s.src1Stride := rfl
@[simp] theorem raise_dst0Base (s : State) (e : CmdError) (info : Word) : (s.raise e info).dst0Base = s.dst0Base := rfl
@[simp] theorem raise_dst0Stride (s : State) (e : CmdError) (info : Word) : (s.raise e info).dst0Stride = s.dst0Stride := rfl
@[simp] theorem raise_dst1Base (s : State) (e : CmdError) (info : Word) : (s.raise e info).dst1Base = s.dst1Base := rfl
@[simp] theorem raise_dst1Stride (s : State) (e : CmdError) (info : Word) : (s.raise e info).dst1Stride = s.dst1Stride := rfl
@[simp] theorem raise_tabBase (s : State) (e : CmdError) (info : Word) : (s.raise e info).tabBase = s.tabBase := rfl
@[simp] theorem raise_rows (s : State) (e : CmdError) (info : Word) : (s.raise e info).rows = s.rows := rfl
@[simp] theorem raise_cols (s : State) (e : CmdError) (info : Word) : (s.raise e info).cols = s.cols := rfl
@[simp] theorem raise_delta (s : State) (e : CmdError) (info : Word) : (s.raise e info).delta = s.delta := rfl
@[simp] theorem raise_lowU (s : State) (e : CmdError) (info : Word) : (s.raise e info).lowU = s.lowU := rfl
@[simp] theorem raise_highU (s : State) (e : CmdError) (info : Word) : (s.raise e info).highU = s.highU := rfl
@[simp] theorem raise_lowV (s : State) (e : CmdError) (info : Word) : (s.raise e info).lowV = s.lowV := rfl
@[simp] theorem raise_highV (s : State) (e : CmdError) (info : Word) : (s.raise e info).highV = s.highV := rfl

@[simp] theorem completeCommand_src0Base (s : State) : (s.completeCommand).src0Base = s.src0Base := rfl
@[simp] theorem completeCommand_src0Stride (s : State) : (s.completeCommand).src0Stride = s.src0Stride := rfl
@[simp] theorem completeCommand_src1Base (s : State) : (s.completeCommand).src1Base = s.src1Base := rfl
@[simp] theorem completeCommand_src1Stride (s : State) : (s.completeCommand).src1Stride = s.src1Stride := rfl
@[simp] theorem completeCommand_dst0Base (s : State) : (s.completeCommand).dst0Base = s.dst0Base := rfl
@[simp] theorem completeCommand_dst0Stride (s : State) : (s.completeCommand).dst0Stride = s.dst0Stride := rfl
@[simp] theorem completeCommand_dst1Base (s : State) : (s.completeCommand).dst1Base = s.dst1Base := rfl
@[simp] theorem completeCommand_dst1Stride (s : State) : (s.completeCommand).dst1Stride = s.dst1Stride := rfl
@[simp] theorem completeCommand_tabBase (s : State) : (s.completeCommand).tabBase = s.tabBase := rfl
@[simp] theorem completeCommand_rows (s : State) : (s.completeCommand).rows = s.rows := rfl
@[simp] theorem completeCommand_cols (s : State) : (s.completeCommand).cols = s.cols := rfl
@[simp] theorem completeCommand_delta (s : State) : (s.completeCommand).delta = s.delta := rfl
@[simp] theorem completeCommand_lowU (s : State) : (s.completeCommand).lowU = s.lowU := rfl
@[simp] theorem completeCommand_highU (s : State) : (s.completeCommand).highU = s.highU := rfl
@[simp] theorem completeCommand_lowV (s : State) : (s.completeCommand).lowV = s.lowV := rfl
@[simp] theorem completeCommand_highV (s : State) : (s.completeCommand).highV = s.highV := rfl

/-! ### Bytes: they depend on `mem` and `epoch` alone -/

@[simp] theorem setStatus_byte (s : State) (f : Status) (k : Nat) : (s.setStatus f).byte k = s.byte k := rfl
@[simp] theorem setStatus_word (s : State) (f : Status) (k : Nat) : (s.setStatus f).word k = s.word k := rfl
@[simp] theorem setReadData_byte (s : State) (w : Word) (k : Nat) : (s.setReadData w).byte k = s.byte k := rfl
@[simp] theorem setReadData_word (s : State) (w : Word) (k : Nat) : (s.setReadData w).word k = s.word k := rfl
@[simp] theorem setPending_byte (s : State) (p : List HostStep) (k : Nat) : (s.setPending p).byte k = s.byte k := rfl
@[simp] theorem setPending_word (s : State) (p : List HostStep) (k : Nat) : (s.setPending p).word k = s.word k := rfl
@[simp] theorem setReg_byte (s : State) (i : Fin 16) (v : Word) (k : Nat) : (s.setReg i v).byte k = s.byte k := rfl
@[simp] theorem setReg_word (s : State) (i : Fin 16) (v : Word) (k : Nat) : (s.setReg i v).word k = s.word k := rfl
@[simp] theorem beginCommand_byte (s : State) (w : Word) (k : Nat) : (s.beginCommand w).byte k = s.byte k := rfl
@[simp] theorem beginCommand_word (s : State) (w : Word) (k : Nat) : (s.beginCommand w).word k = s.word k := rfl
@[simp] theorem raise_byte (s : State) (e : CmdError) (info : Word) (k : Nat) : (s.raise e info).byte k = s.byte k := rfl
@[simp] theorem raise_word (s : State) (e : CmdError) (info : Word) (k : Nat) : (s.raise e info).word k = s.word k := rfl
@[simp] theorem completeCommand_byte (s : State) (k : Nat) : (s.completeCommand).byte k = s.byte k := rfl
@[simp] theorem completeCommand_word (s : State) (k : Nat) : (s.completeCommand).word k = s.word k := rfl
@[simp] theorem applyRst_byte (s : State) (k : Nat) : (s.applyRst).byte k = s.byte k := rfl
@[simp] theorem applyRst_word (s : State) (k : Nat) : (s.applyRst).word k = s.word k := rfl

/-- A byte of new memory. -/
theorem setMem_byte (s : State) (m : Memory) (k : Nat) :
    (s.setMem m).byte k = (m.get? k).getD (Config.powerUpByte s.epoch k) := rfl

theorem byte_of_get? (s : State) (k : Nat) (b : Byte) (h : s.mem.get? k = some b) : s.byte k = b := by
  simp [byte, h]

/-- Two states with the same memory and epoch hold the same bytes. -/
theorem byte_congr {s t : State} (hm : t.mem = s.mem) (he : t.epoch = s.epoch) (k : Nat) : t.byte k = s.byte k := by
  simp [byte, hm, he]

/-! ### Operand registers after `setReg` -/

/-- A register other than the one written (10_state.md R20). -/
theorem setReg_x_ne (s : State) (i j : Fin 16) (v : Word) (h : j ≠ i) : (s.setReg i v).x[j] = s.x[j] := by
  simp only [setReg_x, Fin.getElem_fin]
  exact Vector.getElem_set_ne _ _ fun h' => h (Fin.ext h'.symm)

/-- The register written. -/
theorem setReg_x_self (s : State) (i : Fin 16) (v : Word) : (s.setReg i v).x[i] = v := by simp

end Sys2Proof.Machine.State
end

