-- ==== Sys2Proof/Laws/Validate.lean ====
section
/-! SUPPORT. What the operand tests can answer: `none` exactly when the operands are legal, and which errors. -/

namespace Sys2Proof.Machine

theorem checkGeometry_eq_none_iff (s : State) : checkGeometry s = none ↔ s.rows ≤ 16384 ∧ s.cols ≤ 16384 := by
  unfold checkGeometry Config.maxDim
  split
  · simp; omega
  · split <;> simp <;> omega

theorem strideReg_eq_none_iff (n : BufferName) : n.strideReg = none ↔ n = .tab := by cases n <;> decide

theorem checkStrides_eq_none_iff (bufs : List Buffer) :
    checkStrides bufs = none ↔ ∀ b ∈ bufs, b.name ≠ .tab → b.rowbytes ≤ b.stride := by
  simp only [checkStrides, List.findSome?_eq_none_iff]
  refine forall₂_congr fun b _ => ?_
  rw [ne_eq, ← strideReg_eq_none_iff]
  cases b.name.strideReg <;> simp

theorem checkAlign_eq_none_iff (bufs : List Buffer) :
    checkAlign bufs = none ↔ ∀ b ∈ bufs, b.name = .tab → b.base % 4 = 0 := by
  simp [checkAlign, List.findSome?_eq_none_iff]

theorem checkBus_eq_none_iff (memSize : Nat) (bufs : List Buffer) :
    checkBus memSize bufs = none ↔ ∀ b ∈ bufs, 0 < b.extent → b.base + b.extent ≤ memSize := by
  simp [checkBus, List.findSome?_eq_none_iff]

theorem overlaps_iff (b c : Buffer) : b.overlaps c = true ↔
    0 < b.extent ∧ 0 < c.extent ∧ b.base < c.base + c.extent ∧ c.base < b.base + b.extent := by
  simp [Buffer.overlaps, and_assoc]

theorem checkOverlap_eq_none_iff (bufs : List Buffer) :
    checkOverlap bufs = none ↔ ∀ b ∈ bufs, b.dir = .output → ∀ c ∈ bufs, c.name ≠ b.name →
      ¬(0 < b.extent ∧ 0 < c.extent ∧ b.base < c.base + c.extent ∧ c.base < b.base + b.extent) := by
  simp only [checkOverlap, List.findSome?_eq_none_iff, ite_eq_right_iff, reduceCtorEq, imp_false, not_and,
    List.any_eq_true, Bool.and_eq_true, decide_eq_true_eq, overlaps_iff, not_exists]

/-- The tests pass exactly on legal operands (60_exceptions.md R253). -/
theorem validateWith_eq_none_iff (buffers : State → List Buffer) (s : State) :
    validateWith buffers s = none ↔ Legal (buffers s) s := by
  simp only [validateWith, Option.or_eq_none_iff, checkGeometry_eq_none_iff, checkStrides_eq_none_iff,
    checkAlign_eq_none_iff, checkBus_eq_none_iff, checkOverlap_eq_none_iff, Legal]
  constructor
  · rintro ⟨⟨h1, h2⟩, h3, h4, h5, h6⟩
    exact ⟨h1, h2, fun b hb => ⟨h3 b hb, h4 b hb, h5 b hb⟩, h6⟩
  · rintro ⟨h1, h2, h3, h4⟩
    exact ⟨⟨h1, h2⟩, fun b hb => (h3 b hb).1, fun b hb => (h3 b hb).2.1, fun b hb => (h3 b hb).2.2, h4⟩

/-- Two buffers that do not overlap share no byte of their rows (20_memory.md R67). -/
theorem addr_ne_of_not_overlap (b c : Buffer)
    (h : ¬(0 < b.extent ∧ 0 < c.extent ∧ b.base < c.base + c.extent ∧ c.base < b.base + b.extent))
    (r k : Nat) (hr : r < b.nrows) (hk : k < b.rowbytes) (r' k' : Nat) (hr' : r' < c.nrows) (hk' : k' < c.rowbytes) :
    b.addr r k ≠ c.addr r' k' := by
  have key : ∀ (d : Buffer) (i j : Nat), i < d.nrows → j < d.rowbytes →
      0 < d.extent ∧ d.base ≤ d.addr i j ∧ d.addr i j < d.base + d.extent := by
    intro d i j hi hj
    have hmul : i * d.stride ≤ (d.nrows - 1) * d.stride := Nat.mul_le_mul_right _ (by omega)
    have hx : d.extent = (d.nrows - 1) * d.stride + d.rowbytes := by
      unfold Buffer.extent
      rw [if_neg (by omega)]
    unfold Buffer.addr
    omega
  have hb := key b r k hr hk
  have hc := key c r' k' hr' hk'
  omega

/-- A byte of a row lies in its region (20_memory.md R67). -/
theorem addr_lt_of_inMemory (b : Buffer) (memSize : Nat) (h : 0 < b.extent → b.base + b.extent ≤ memSize) (r k : Nat)
    (hr : r < b.nrows) (hk : k < b.rowbytes) : b.addr r k < memSize := by
  have hmul : r * b.stride ≤ (b.nrows - 1) * b.stride := Nat.mul_le_mul_right _ (by omega)
  have hx : b.extent = (b.nrows - 1) * b.stride + b.rowbytes := by
    unfold Buffer.extent
    rw [if_neg (by omega)]
  unfold Buffer.addr
  omega

/-! ### The tests, buffer by buffer -/

theorem some_or_of_ite {α : Type} (c : Prop) [Decidable c] (a : α) (x : Option α) :
    (if c then some a else none).or x = if c then some a else x := by
  split <;> rfl

theorem findSome?_cons_or {α β : Type} (f : α → Option β) (a : α) (l : List α) (x : Option β) :
    ((a :: l).findSome? f).or x = (f a).or ((l.findSome? f).or x) := by
  rw [List.findSome?_cons]
  cases f a <;> rfl

theorem checkGeometry_or (s : State) (x : Option Rejection) : (checkGeometry s).or x =
    if 16384 < s.rows then some ⟨.geom, 9⟩ else if 16384 < s.cols then some ⟨.geom, 10⟩ else x := by
  unfold checkGeometry Config.maxDim
  split
  · rfl
  · split <;> rfl

theorem checkStrides_nil_or (x : Option Rejection) : (checkStrides []).or x = x := rfl

theorem checkStrides_cons_or (b : Buffer) (bufs : List Buffer) (x : Option Rejection) : (checkStrides (b :: bufs)).or x =
    match b.name.strideReg with
    | some n => if b.stride < b.rowbytes then some ⟨.stride, n⟩ else (checkStrides bufs).or x
    | none => (checkStrides bufs).or x := by
  unfold checkStrides
  rw [findSome?_cons_or]
  cases b.name.strideReg <;> simp only [some_or_of_ite, Option.none_or]

theorem checkAlign_nil_or (x : Option Rejection) : (checkAlign []).or x = x := rfl

theorem checkAlign_cons_or (b : Buffer) (bufs : List Buffer) (x : Option Rejection) : (checkAlign (b :: bufs)).or x =
    if b.name = .tab ∧ b.base % 4 ≠ 0 then some ⟨.align, b.name.baseReg⟩ else (checkAlign bufs).or x := by
  unfold checkAlign
  rw [findSome?_cons_or, some_or_of_ite]

theorem checkBus_nil_or (memSize : Nat) (x : Option Rejection) : (checkBus memSize []).or x = x := rfl

theorem checkBus_cons_or (memSize : Nat) (b : Buffer) (bufs : List Buffer) (x : Option Rejection) :
    (checkBus memSize (b :: bufs)).or x =
      if beyondMemory memSize b.base b.extent then some ⟨.bus, b.name.baseReg⟩ else (checkBus memSize bufs).or x := by
  unfold checkBus
  rw [findSome?_cons_or, some_or_of_ite]

theorem overlaps_eq (b c : Buffer) : b.overlaps c = decide (regionsMeet b.base b.extent c.base c.extent) := by
  rw [Bool.eq_iff_iff, overlaps_iff, decide_eq_true_eq]

/-- The overlap test of a command with one output buffer among two. -/
theorem checkOverlap_two (b c : Buffer) (hb : b.dir = .input) (hc : c.dir = .output) (hbc : b.name ≠ c.name) :
    checkOverlap [b, c] =
      if regionsMeet c.base c.extent b.base b.extent then some ⟨.overlap, c.name.baseReg⟩ else none := by
  rw [← Option.or_none (o := checkOverlap _)]
  simp only [checkOverlap, findSome?_cons_or, some_or_of_ite, List.findSome?_nil, Option.none_or, overlaps_eq]
  simp [hb, hc, hbc]

/-- The overlap test of a command with three buffers. -/
theorem checkOverlap_three (b c d : Buffer) (hb : b.dir = .input) (hbc : b.name ≠ c.name) (hbd : b.name ≠ d.name)
    (hcd : c.name ≠ d.name) : checkOverlap [b, c, d] =
      if c.dir = .output ∧ (regionsMeet c.base c.extent b.base b.extent ∨ regionsMeet c.base c.extent d.base d.extent) then
        some ⟨.overlap, c.name.baseReg⟩
      else if d.dir = .output ∧ (regionsMeet d.base d.extent b.base b.extent ∨
          regionsMeet d.base d.extent c.base c.extent) then
        some ⟨.overlap, d.name.baseReg⟩
      else none := by
  rw [← Option.or_none (o := checkOverlap _)]
  simp only [checkOverlap, findSome?_cons_or, some_or_of_ite, List.findSome?_nil, Option.none_or, overlaps_eq]
  simp [hb, hbc, hbd, hcd, hcd.symm]

/-- The table has no gap: its extent is four bytes for each of its `(ROWS+1)*(COLS+1)` entries (20_memory.md R68). -/
theorem tab_extent (s : State) (d : Direction) : (s.tab d).extent = 4 * ((s.rows + 1) * (s.cols + 1)) := by
  have h : ¬((s.tab d).nrows = 0 ∨ (s.tab d).rowbytes = 0) := by
    simp only [State.tab]
    omega
  rw [Buffer.extent, if_neg h]
  simp only [State.tab, Nat.add_sub_cancel]
  ring

end Sys2Proof.Machine
end

