-- ==== Sys2Proof/Laws/Commands.lean ====
section
/-! SUPPORT. Everything the issue of a command can do: it ends rejected or completed, and which of the two its operands say
(60_exceptions.md R250, R251). -/

namespace Sys2Proof.Machine

/-- The two ends of an issue. -/
theorem runCommand_cases (w : Word) (v : State → Option Rejection) (b : State → State) (s : State) :
    (∃ r, v (s.beginCommand w) = some r ∧ runCommand w v b s = s.rejected w r.error r.info) ∨
      (v (s.beginCommand w) = none ∧ runCommand w v b s = (b (s.beginCommand w)).completeCommand) := by
  unfold runCommand
  cases h : v (s.beginCommand w) with
  | some r => exact .inl ⟨r, rfl, rfl⟩
  | none => exact .inr ⟨rfl, rfl⟩

/-! ### The issue of each command, its operand tests read at the state before the issue -/

theorem nopCommand_eq (s : State) : nopCommand s = s.completed 0x00000000 s.mem s.status.ovf := rfl

theorem deintCommand_eq (s : State) : deintCommand s =
    match validateWith deintBuffers s with
    | some r => s.rejected 0x00000001 r.error r.info
    | none => s.completed 0x00000001 (deintBody s).mem s.status.ovf := by
  have hv : validateWith deintBuffers (s.beginCommand 1) = validateWith deintBuffers s := rfl
  unfold deintCommand runCommand
  rw [hv]
  cases validateWith deintBuffers s <;> rfl

theorem integCommand_eq (s : State) : integCommand s =
    match validateWith integBuffers s with
    | some r => s.rejected 0x00000002 r.error r.info
    | none => s.completed 0x00000002 (integWrites s) (s.status.ovf || decide (2 ^ 31 - 1 < imageTotal s)) := by
  have hv : validateWith integBuffers (s.beginCommand 2) = validateWith integBuffers s := rfl
  unfold integCommand runCommand
  rw [hv]
  cases validateWith integBuffers s <;> rfl

theorem athrCommand_eq (s : State) : athrCommand s =
    match validateWith athrBuffers s with
    | some r => s.rejected 0x00000003 r.error r.info
    | none => s.completed 0x00000003 (athrBody s).mem s.status.ovf := by
  have hv : validateWith athrBuffers (s.beginCommand 3) = validateWith athrBuffers s := rfl
  unfold athrCommand runCommand
  rw [hv]
  cases validateWith athrBuffers s <;> rfl

theorem adaptCommand_eq (s : State) : adaptCommand s =
    match validateWith adaptBuffers s with
    | some r => s.rejected 0x00000004 r.error r.info
    | none => s.completed 0x00000004 (athrBody (s.setMem (integWrites s))).mem
        (s.status.ovf || decide (2 ^ 31 - 1 < imageTotal s)) := by
  have hv : validateWith adaptBuffers (s.beginCommand 4) = validateWith adaptBuffers s := rfl
  unfold adaptCommand runCommand
  rw [hv]
  cases validateWith adaptBuffers s <;> rfl

theorem rangeCommand_eq (s : State) : rangeCommand s =
    match validateWith rangeBuffers s with
    | some r => s.rejected 0x00000005 r.error r.info
    | none => s.completed 0x00000005 (rangeBody s).mem s.status.ovf := by
  have hv : validateWith rangeBuffers (s.beginCommand 5) = validateWith rangeBuffers s := rfl
  unfold rangeCommand runCommand
  rw [hv]
  cases validateWith rangeBuffers s <;> rfl

/-! ### Legal operands: the command completes -/

theorem deintCommand_of_legal (s : State) (h : Legal (deintBuffers s) s) :
    deintCommand s = s.completed 0x00000001 (deintBody s).mem s.status.ovf := by
  rw [deintCommand_eq, (validateWith_eq_none_iff _ _).2 h]

theorem integCommand_of_legal (s : State) (h : Legal (integBuffers s) s) : integCommand s =
    s.completed 0x00000002 (integWrites s) (s.status.ovf || decide (2 ^ 31 - 1 < imageTotal s)) := by
  rw [integCommand_eq, (validateWith_eq_none_iff _ _).2 h]

theorem athrCommand_of_legal (s : State) (h : Legal (athrBuffers s) s) :
    athrCommand s = s.completed 0x00000003 (athrBody s).mem s.status.ovf := by
  rw [athrCommand_eq, (validateWith_eq_none_iff _ _).2 h]

theorem adaptCommand_of_legal (s : State) (h : Legal (adaptBuffers s) s) : adaptCommand s =
    s.completed 0x00000004 (athrBody (s.setMem (integWrites s))).mem
      (s.status.ovf || decide (2 ^ 31 - 1 < imageTotal s)) := by
  rw [adaptCommand_eq, (validateWith_eq_none_iff _ _).2 h]

theorem rangeCommand_of_legal (s : State) (h : Legal (rangeBuffers s) s) :
    rangeCommand s = s.completed 0x00000005 (rangeBody s).mem s.status.ovf := by
  rw [rangeCommand_eq, (validateWith_eq_none_iff _ _).2 h]

/-! ### Operands that are not legal: the command is rejected -/

theorem exists_rejection (buffers : State → List Buffer) (s : State) (h : ¬Legal (buffers s) s) :
    ∃ r, validateWith buffers s = some r := by
  rw [← validateWith_eq_none_iff] at h
  exact Option.ne_none_iff_exists'.1 h

/-! ### Fields of the two ends -/

@[simp] theorem rejected_cfg (s : State) (w : Word) (e : CmdError) (i : Word) : (s.rejected w e i).cfg = s.cfg := rfl
@[simp] theorem rejected_x (s : State) (w : Word) (e : CmdError) (i : Word) : (s.rejected w e i).x = s.x := rfl
@[simp] theorem rejected_cmd (s : State) (w : Word) (e : CmdError) (i : Word) : (s.rejected w e i).cmd = w := rfl
@[simp] theorem rejected_status (s : State) (w : Word) (e : CmdError) (i : Word) :
    (s.rejected w e i).status = { done := false, err := true, ovf := s.status.ovf } := rfl
@[simp] theorem rejected_ecause (s : State) (w : Word) (e : CmdError) (i : Word) :
    (s.rejected w e i).ecause = some e := rfl
@[simp] theorem rejected_eval (s : State) (w : Word) (e : CmdError) (i : Word) : (s.rejected w e i).eval = i := rfl
@[simp] theorem rejected_mem (s : State) (w : Word) (e : CmdError) (i : Word) : (s.rejected w e i).mem = s.mem := rfl
@[simp] theorem rejected_epoch (s : State) (w : Word) (e : CmdError) (i : Word) : (s.rejected w e i).epoch = s.epoch := rfl
@[simp] theorem rejected_pending (s : State) (w : Word) (e : CmdError) (i : Word) :
    (s.rejected w e i).pending = s.pending := rfl
@[simp] theorem rejected_readData (s : State) (w : Word) (e : CmdError) (i : Word) :
    (s.rejected w e i).readData = s.readData := rfl

@[simp] theorem completed_cfg (s : State) (w : Word) (m : Memory) (o : Bool) : (s.completed w m o).cfg = s.cfg := rfl
@[simp] theorem completed_x (s : State) (w : Word) (m : Memory) (o : Bool) : (s.completed w m o).x = s.x := rfl
@[simp] theorem completed_cmd (s : State) (w : Word) (m : Memory) (o : Bool) : (s.completed w m o).cmd = w := rfl
@[simp] theorem completed_status (s : State) (w : Word) (m : Memory) (o : Bool) :
    (s.completed w m o).status = { done := true, err := false, ovf := o } := rfl
@[simp] theorem completed_ecause (s : State) (w : Word) (m : Memory) (o : Bool) : (s.completed w m o).ecause = none := rfl
@[simp] theorem completed_eval (s : State) (w : Word) (m : Memory) (o : Bool) : (s.completed w m o).eval = 0 := rfl
@[simp] theorem completed_mem (s : State) (w : Word) (m : Memory) (o : Bool) : (s.completed w m o).mem = m := rfl
@[simp] theorem completed_epoch (s : State) (w : Word) (m : Memory) (o : Bool) : (s.completed w m o).epoch = s.epoch := rfl
@[simp] theorem completed_pending (s : State) (w : Word) (m : Memory) (o : Bool) :
    (s.completed w m o).pending = s.pending := rfl
@[simp] theorem completed_readData (s : State) (w : Word) (m : Memory) (o : Bool) :
    (s.completed w m o).readData = s.readData := rfl

/-! ### What an issue reports -/

/-- An issue that ends rejected with the error its tests answer, or completed, reports exactly that; rejected it leaves
memory and `OVF`. -/
theorem issue_reports (cmd s : State) (w : Word) (v : Option Rejection) (m : Memory) (o : Bool)
    (r : Option (CmdError × Word))
    (hc : cmd = match v with
      | some r => s.rejected w r.error r.info
      | none => s.completed w m o)
    (h : v.map (fun r => (r.error, r.info)) = r) :
    (cmd.ecause ≠ none → cmd.mem = s.mem ∧ cmd.status.ovf = s.status.ovf) ∧ cmd.reports r := by
  subst h
  subst hc
  cases v with
  | none => exact ⟨fun h => absurd rfl h, rfl, rfl, rfl, rfl⟩
  | some e => exact ⟨fun _ => ⟨rfl, rfl⟩, rfl, rfl, rfl, rfl⟩

/-- One test of a chain of tests. -/
theorem map_ite_congr {α β : Type} (f : α → β) (p q : Prop) [Decidable p] [Decidable q] (a : α) (b : β) (x : Option α)
    (y : Option β) (hb : f a = b) (h : p ↔ q) (hx : ¬q → x.map f = y) :
    (if p then some a else x).map f = if q then some b else y := by
  by_cases hq : q
  · rw [if_pos hq, if_pos (h.2 hq), Option.map_some, hb]
  · rw [if_neg hq, if_neg fun hp => hq (h.1 hp), hx hq]

theorem regionsMeet_comm (a b c d : Nat) : regionsMeet a b c d ↔ regionsMeet c d a b := by
  unfold regionsMeet
  omega

end Sys2Proof.Machine
end

