-- ==== Sys2Proof/Laws/Integ.lean ====
section
/-! SUPPORT. The recurrence of 41_integ.md R143 gives the sums of R142. -/

namespace Sys2Proof.Machine

/-- The inner loop: the entry above plus the row's running sum. -/
theorem tableRowTail_getElem? (rowsum : Word) (above : List Word) (pixels : List Byte) (h : above.length = pixels.length)
    (c : Nat) (hc : c < pixels.length) : (tableRowTail rowsum above pixels)[c]? =
      some (above[c] + (rowsum + BitVec.ofNat 32 ((pixels.take (c + 1)).map BitVec.toNat).sum)) := by
  induction pixels generalizing rowsum above c with
  | nil => simp at hc
  | cons p ps ih =>
    cases above with
    | nil => simp at h
    | cons a as =>
      simp only [List.length_cons, Nat.add_right_cancel_iff] at h
      have hp : p.setWidth 32 = BitVec.ofNat 32 p.toNat := by
        apply BitVec.eq_of_toNat_eq
        rw [BitVec.toNat_setWidth, BitVec.toNat_ofNat]
      simp only [tableRowTail]
      cases c with
      | zero => simp only [List.getElem?_cons_zero, List.getElem_cons_zero, Nat.zero_add, List.take_succ_cons,
          List.take_zero, List.map_cons, List.map_nil, List.sum_cons, List.sum_nil, Nat.add_zero, hp]
      | succ c =>
        simp only [List.length_cons, Nat.add_lt_add_iff_right] at hc
        simp only [List.getElem?_cons_succ, ih _ _ h c hc, List.getElem_cons_succ, List.take_succ_cons, List.map_cons,
          List.sum_cons, BitVec.ofNat_add, hp]
        rw [BitVec.add_assoc]

theorem tableRowTail_length (rowsum : Word) (above : List Word) (pixels : List Byte)
    (h : above.length = pixels.length) : (tableRowTail rowsum above pixels).length = pixels.length := by
  induction pixels generalizing rowsum above with
  | nil => cases above <;> simp [tableRowTail]
  | cons p ps ih =>
    cases above with
    | nil => simp at h
    | cons a as =>
      simp only [List.length_cons, Nat.add_right_cancel_iff] at h
      simp [tableRowTail, ih _ _ h]

theorem nextTableRow_length (above : List Word) (pixels : List Byte) (h : above.length = pixels.length + 1) :
    (nextTableRow above pixels).length = pixels.length + 1 := by
  simp [nextTableRow, tableRowTail_length _ _ _ (show above.tail.length = pixels.length by simp [h])]

/-- One row of the table from the row above: each entry gains the sum of the row's pixels to its left. -/
theorem nextTableRow_getElem (above : List Word) (pixels : List Byte) (h : above.length = pixels.length + 1)
    (hz : above[0] = 0) (c : Nat) (hc : c < (nextTableRow above pixels).length) : (nextTableRow above pixels)[c] =
      above[c]'(by rw [nextTableRow_length _ _ h] at hc; omega) +
        BitVec.ofNat 32 ((pixels.take c).map BitVec.toNat).sum := by
  have hl := nextTableRow_length _ _ h
  have ht : above.tail.length = pixels.length := by simp [h]
  cases c with
  | zero => simp [nextTableRow, hz]
  | succ c =>
    have := tableRowTail_getElem? 0 above.tail pixels ht c (by omega)
    apply Option.some.inj
    rw [← List.getElem?_eq_getElem]
    simp only [nextTableRow, List.getElem?_cons_succ, this]
    simp

/-- The number of rows of the table. -/
theorem tableRows_length (row : List Word) (image : List (List Byte)) :
    (tableRows row image).length = image.length + 1 := by
  induction image generalizing row with
  | nil => simp [tableRows]
  | cons p ps ih => simp [tableRows, ih]

/-- Entry `(r, c)` of the table: the first row's entry plus the sum of the pixels above and to the left (R142). -/
theorem tableRows_getElem (n : Nat) (row : List Word) (image : List (List Byte)) (hrow : row.length = n + 1)
    (hz : row[0] = 0) (him : ∀ p ∈ image, p.length = n) (r c : Nat) (hr : r < (tableRows row image).length) (hc : c ≤ n) :
    ∃ h : c < (tableRows row image)[r].length, (tableRows row image)[r].length = n + 1 ∧ (tableRows row image)[r][c] =
      row[c] + BitVec.ofNat 32 (((image.take r).map fun p => ((p.take c).map BitVec.toNat).sum).sum) := by
  induction image generalizing row r with
  | nil =>
    simp only [tableRows_length, List.length_nil] at hr
    obtain rfl : r = 0 := by omega
    refine ⟨?_, ?_, ?_⟩ <;> simp [tableRows] <;> omega
  | cons p ps ih =>
    cases r with
    | zero => refine ⟨?_, ?_, ?_⟩ <;> simp [tableRows] <;> omega
    | succ r =>
      have hp : p.length = n := him p (by simp)
      have hlen : row.length = p.length + 1 := by omega
      have hn := nextTableRow_length row p hlen
      have hr' : r < (tableRows (nextTableRow row p) ps).length := by
        simpa [tableRows_length] using hr
      obtain ⟨h1, h2, h3⟩ := ih (nextTableRow row p) (by omega) (by simp [nextTableRow])
        (fun q hq => him q (by simp [hq])) r hr'
      refine ⟨by simpa [tableRows] using h1, by simpa [tableRows] using h2, ?_⟩
      have hx := nextTableRow_getElem row p hlen hz c (by omega)
      simp only [tableRows, List.getElem_cons_succ, h3, hx, List.take_succ_cons, List.map_cons, List.sum_cons,
        BitVec.ofNat_add]
      rw [BitVec.add_assoc]

/-! ### Sums over an image -/

theorem sum_map_range (k : Nat) (f : Nat → Nat) : ((List.range k).map f).sum = ∑ i ∈ Finset.Ico 0 k, f i := by
  induction k with
  | zero => simp
  | succ k ih => simp [List.range_succ, ih, Finset.sum_range_succ]

/-- The pixels of an image above row `r` and left of column `c`. -/
theorem sum_imageOf (nrows ncols : Nat) (f : Nat → Nat → Byte) (r c : Nat) (hr : r ≤ nrows) (hc : c ≤ ncols) :
    (((imageOf nrows ncols f).take r).map fun p => ((p.take c).map BitVec.toNat).sum).sum =
      ∑ i ∈ Finset.Ico 0 r, ∑ j ∈ Finset.Ico 0 c, (f i j).toNat := by
  simp only [imageOf, ← List.map_take, List.take_range, List.map_map, Function.comp_def, Nat.min_eq_left hr,
    Nat.min_eq_left hc, sum_map_range]

/-- `TOT` is the sum of all pixels (R146). -/
theorem imageTotal_eq (s : State) : imageTotal s = pixelSum s 0 s.rows 0 s.cols := by
  simp only [imageTotal, sourceImage, imageOf, List.map_map, Function.comp_def, sum_map_range, pixelSum]

/-! ### The table of a state -/

theorem integTable_length (s : State) : (integTable s).length = s.rows + 1 := by
  simp [integTable, tableRows_length, sourceImage]

/-- Entry `(r, c)` of the table `INTEG` builds: the sum of the pixels above and to the left, modulo `2^32` (R142). -/
theorem integTable_getElem (s : State) (r c : Nat) (hr : r < (integTable s).length) (hc : c ≤ s.cols) :
    ∃ h : c < (integTable s)[r].length, (integTable s)[r].length = s.cols + 1 ∧
      (integTable s)[r][c] = BitVec.ofNat 32 (pixelSum s 0 r 0 c) := by
  have hr' : r ≤ s.rows := by
    rw [integTable_length] at hr
    omega
  obtain ⟨h1, h2, h3⟩ := tableRows_getElem s.cols (List.replicate (s.cols + 1) 0) (sourceImage s) (by simp) (by simp)
    (fun p hp => imageOf_row_length _ _ _ _ hp) r c hr hc
  refine ⟨h1, h2, ?_⟩
  have hsum := sum_imageOf s.rows s.cols s.srcByte r c hr' hc
  refine h3.trans ?_
  rw [List.getElem_replicate, zero_add]
  exact congrArg _ hsum

/-! ### The table in memory -/

theorem flatMap_leBytes_length (row : List Word) : (row.flatMap leBytes).length = 4 * row.length := by
  induction row with
  | nil => rfl
  | cons w ws ih => simp only [List.flatMap_cons, List.length_append, ih, leBytes_length, List.length_cons]; omega

theorem flatMap_leBytes_getElem? (row : List Word) (c k : Nat) (hc : c < row.length) (hk : k < 4) :
    (row.flatMap leBytes)[4 * c + k]? = (leBytes row[c])[k]? := by
  induction row generalizing c with
  | nil => simp at hc
  | cons w ws ih =>
    cases c with
    | zero => rw [List.flatMap_cons, List.getElem?_append_left (by simpa using hk), Nat.mul_zero, Nat.zero_add,
        List.getElem_cons_zero]
    | succ c =>
      simp only [List.length_cons, Nat.add_lt_add_iff_right] at hc
      rw [List.flatMap_cons, List.getElem?_append_right (by simp; omega), List.getElem_cons_succ, ← ih c hc]
      congr 1
      simp only [leBytes_length]
      omega

/-- The bytes of entry `(r, c)` of the table after `INTEG`'s writes. -/
theorem integWrites_get? (s : State) (r c k : Nat) (hr : r ≤ s.rows) (hc : c ≤ s.cols) (hk : k < 4) :
    (integWrites s).get? (s.taddr r c + k) = (leBytes (BitVec.ofNat 32 (pixelSum s 0 r 0 c)))[k]? := by
  have hlen := integTable_length s
  obtain ⟨h1, h2, h3⟩ := integTable_getElem s r c (by omega) hc
  have hrows : ∀ row ∈ (integTable s).map (fun row => row.flatMap leBytes), row.length ≤ 4 * (s.cols + 1) := by
    intro row hrow
    simp only [List.mem_map] at hrow
    obtain ⟨w, hw, rfl⟩ := hrow
    obtain ⟨i, hi, rfl⟩ := List.getElem_of_mem hw
    obtain ⟨-, h, -⟩ := integTable_getElem s i 0 hi (by omega)
    rw [flatMap_leBytes_length, h]
  have hrl : r < ((integTable s).map (List.flatMap leBytes)).length := by simp [hlen]; omega
  have hrow : ((integTable s).map (List.flatMap leBytes))[r] = (integTable s)[r].flatMap leBytes := by simp
  have hcl : 4 * c + k < (((integTable s).map (List.flatMap leBytes))[r]).length := by
    rw [hrow, flatMap_leBytes_length, h2]
    omega
  have hget := Memory.get?_writeRows_of_mem s.mem s.tabBase (4 * (s.cols + 1)) _ hrows r (4 * c + k) hrl hcl
  have ha : s.taddr r c + k = s.tabBase + r * (4 * (s.cols + 1)) + (4 * c + k) := by
    unfold State.taddr
    ring
  refine (congrArg _ ha).trans (hget.trans ?_)
  rw [← List.getElem?_eq_getElem, hrow, flatMap_leBytes_getElem? _ _ _ h1 hk, h3]

/-- Every row of the table's bytes fills the pitch exactly (41_integ.md R141). -/
theorem integTable_row_bytes (s : State) (r : Nat) (hr : r < (integTable s).length) :
    ((integTable s)[r].flatMap leBytes).length = 4 * (s.cols + 1) := by
  obtain ⟨-, h, -⟩ := integTable_getElem s r 0 hr (by omega)
  rw [flatMap_leBytes_length, h]

/-- An address outside the table reads as before. -/
theorem integWrites_get?_of_outside (s : State) (k : Nat)
    (h : k < s.tabBase ∨ s.tabBase + 4 * ((s.rows + 1) * (s.cols + 1)) ≤ k) :
    (integWrites s).get? k = s.mem.get? k := by
  refine Memory.get?_writeRows_of_not_mem _ _ _ _ _ fun r hr => ?_
  simp only [List.length_map] at hr
  rw [List.getElem_map, integTable_row_bytes]
  rw [integTable_length] at hr
  have : (r + 1) * (4 * (s.cols + 1)) ≤ (s.rows + 1) * (4 * (s.cols + 1)) := Nat.mul_le_mul_right _ (by omega)
  have e1 : (r + 1) * (4 * (s.cols + 1)) = r * (4 * (s.cols + 1)) + 4 * (s.cols + 1) := by ring
  have e2 : (s.rows + 1) * (4 * (s.cols + 1)) = 4 * ((s.rows + 1) * (s.cols + 1)) := by ring
  omega

/-- The table entry that memory holds after `INTEG`'s writes, read back as a word (R142). -/
theorem integWrites_word (s t : State) (ht : t.mem = integWrites s) (r c : Nat) (hr : r ≤ s.rows) (hc : c ≤ s.cols) :
    t.word (s.taddr r c) = BitVec.ofNat 32 (pixelSum s 0 r 0 c) := by
  have h := integWrites_get? s r c
  have hb : ∀ k (hk : k < 4), t.byte (s.taddr r c + k) = (leBytes (BitVec.ofNat 32 (pixelSum s 0 r 0 c)))[k] := by
    intro k hk
    unfold State.byte
    rw [ht, h k hr hc hk, List.getElem?_eq_getElem (by simpa using hk)]
    rfl
  unfold State.word
  have h0 := hb 0 (by omega)
  have h1 := hb 1 (by omega)
  have h2 := hb 2 (by omega)
  have h3 := hb 3 (by omega)
  rw [Nat.add_zero] at h0
  rw [h0, h1, h2, h3]
  exact ofLeBytes_leBytes _

end Sys2Proof.Machine
end

