-- ==== Sys2Proof/Laws/Bodies.lean ====
section
/-! SUPPORT. The bytes of memory after the body of each command on legal operands, and that a body keeps the canonical form
and adds no address that does not exist. -/

namespace Sys2Proof.Machine

/-! ### Reading -/

theorem byte_eq_of_get? (s t : State) (k : Nat) (he : t.epoch = s.epoch) (h : t.mem.get? k = s.mem.get? k) :
    t.byte k = s.byte k := by
  unfold State.byte
  rw [h, he]

theorem byte_of_get? (t : State) (k : Nat) (b : Byte) (h : t.mem.get? k = some b) : t.byte k = b := by
  unfold State.byte
  rw [h]
  rfl

/-- A state with an image written to a buffer reads the image there. -/
theorem byte_writeRows (t : State) (m : Memory) (a stride nrows ncols : Nat) (f : Nat → Nat → Byte)
    (ht : t.mem = m.writeRows a stride (imageOf nrows ncols f)) (h : ncols ≤ stride) (r c : Nat) (hr : r < nrows)
    (hc : c < ncols) : t.byte (a + r * stride + c) = f r c := by
  refine byte_of_get? _ _ _ ?_
  rw [ht, get?_writeRows_imageOf _ _ _ _ _ _ h r c hr hc]

/-! ### Legal operands, unpacked -/

theorem legal_stride (bufs : List Buffer) (s : State) (h : Legal bufs s) (b : Buffer) (hb : b ∈ bufs)
    (hn : b.name ≠ .tab) : b.rowbytes ≤ b.stride := (h.2.2.1 b hb).1 hn

theorem legal_bound (bufs : List Buffer) (s : State) (h : Legal bufs s) (b : Buffer) (hb : b ∈ bufs) :
    0 < b.extent → b.base + b.extent ≤ s.cfg.memSize := (h.2.2.1 b hb).2.2

/-- An output buffer shares no byte with another buffer. -/
theorem legal_addr_ne (bufs : List Buffer) (s : State) (h : Legal bufs s) (b c : Buffer) (hb : b ∈ bufs)
    (ho : b.dir = .output) (hc : c ∈ bufs) (hn : c.name ≠ b.name) (r k : Nat) (hr : r < b.nrows) (hk : k < b.rowbytes)
    (r' k' : Nat) (hr' : r' < c.nrows) (hk' : k' < c.rowbytes) : b.addr r k ≠ c.addr r' k' :=
  addr_ne_of_not_overlap b c (h.2.2.2 b hb ho c hc hn) r k hr hk r' k' hr' hk'

/-! ### `DEINT` -/

theorem deintBody_byte_dst1 (s t : State) (h : Legal (deintBuffers s) s) (ht : t.mem = (deintBody s).mem) (r c : Nat)
    (hr : r < s.rows) (hc : c < s.cols) : t.byte (s.dst1Base + r * s.dst1Stride + c) = deintByte s .v r c :=
  byte_writeRows t _ _ _ _ _ _ ht (legal_stride _ s h (s.dst1 s.cols) (by simp [deintBuffers]) (by simp [State.dst1]))
    r c hr hc

theorem deintBody_byte_dst0 (s t : State) (h : Legal (deintBuffers s) s) (ht : t.mem = (deintBody s).mem) (r c : Nat)
    (hr : r < s.rows) (hc : c < s.cols) : t.byte (s.dst0Base + r * s.dst0Stride + c) = deintByte s .u r c := by
  refine byte_of_get? _ _ _ ?_
  rw [ht]
  refine (get?_writeRows_imageOf_of_ne _ _ _ _ _ _ _ fun r' hr' c' hc' => ?_).trans ?_
  · exact legal_addr_ne _ s h (s.dst0 s.cols) (s.dst1 s.cols) (by simp [deintBuffers]) rfl (by simp [deintBuffers])
      (by simp [State.dst0, State.dst1]) r c hr hc r' c' hr' hc'
  · exact get?_writeRows_imageOf _ _ _ _ _ _ (legal_stride _ s h (s.dst0 s.cols) (by simp [deintBuffers])
      (by simp [State.dst0])) r c hr hc

theorem deintBody_get?_of_ne (s : State) (k : Nat) (h0 : ∀ r < s.rows, ∀ c < s.cols, k ≠ s.dst0Base + r * s.dst0Stride + c)
    (h1 : ∀ r < s.rows, ∀ c < s.cols, k ≠ s.dst1Base + r * s.dst1Stride + c) :
    (deintBody s).mem.get? k = s.mem.get? k :=
  (get?_writeRows_imageOf_of_ne _ _ _ _ _ _ _ h1).trans (get?_writeRows_imageOf_of_ne _ _ _ _ _ _ _ h0)

/-! ### `ATHR` -/

/-- The interior with its numbers (42_athr.md R161). -/
theorem inInterior_iff (rows cols i j : Nat) :
    inInterior rows cols i j = true ↔ 7 ≤ i ∧ i + 8 < rows ∧ 7 ≤ j ∧ j + 8 < cols := by
  simp only [inInterior, Bool.and_eq_true, decide_eq_true_eq, and_assoc]
  rfl

/-- `ATHR`'s image in `DST0`, where the output rows do not overlap one another. -/
theorem athrBody_byte (s t : State) (hst : s.cols ≤ s.dst0Stride) (ht : t.mem = (athrBody s).mem) (r c : Nat)
    (hr : r < s.rows) (hc : c < s.cols) : t.byte (s.dst0Base + r * s.dst0Stride + c) = athrByte s r c :=
  byte_writeRows t _ _ _ _ _ _ ht hst r c hr hc

theorem athrBody_get?_of_ne (s : State) (k : Nat) (h : ∀ r < s.rows, ∀ c < s.cols, k ≠ s.dst0Base + r * s.dst0Stride + c) :
    (athrBody s).mem.get? k = s.mem.get? k := get?_writeRows_imageOf_of_ne _ _ _ _ _ _ _ h

/-! ### `RANGE` -/

theorem rangeBody_byte (s t : State) (hst : s.cols ≤ s.dst0Stride) (ht : t.mem = (rangeBody s).mem) (r c : Nat)
    (hr : r < s.rows) (hc : c < s.cols) : t.byte (s.dst0Base + r * s.dst0Stride + c) = rangeByte s r c :=
  byte_writeRows t _ _ _ _ _ _ ht hst r c hr hc

theorem rangeBody_get?_of_ne (s : State) (k : Nat) (h : ∀ r < s.rows, ∀ c < s.cols, k ≠ s.dst0Base + r * s.dst0Stride + c) :
    (rangeBody s).mem.get? k = s.mem.get? k := get?_writeRows_imageOf_of_ne _ _ _ _ _ _ _ h

/-- The mask byte by the four comparisons at once (43_range.md R191). -/
theorem rangeByte_eq (s : State) (r c : Nat) : rangeByte s r c =
    if s.lowU ≤ ((s.srcByte r c).toNat : Int) ∧ ((s.srcByte r c).toNat : Int) ≤ s.highU ∧
      s.lowV ≤ ((s.src1Byte r c).toNat : Int) ∧ ((s.src1Byte r c).toNat : Int) ≤ s.highV then 0xFF else 0x00 := by
  unfold rangeByte channelMask
  by_cases h1 : s.lowU ≤ ((s.srcByte r c).toNat : Int) ∧ ((s.srcByte r c).toNat : Int) ≤ s.highU
  · by_cases h2 : s.lowV ≤ ((s.src1Byte r c).toNat : Int) ∧ ((s.src1Byte r c).toNat : Int) ≤ s.highV
    · rw [if_pos h1, if_pos h2, if_pos ⟨h1.1, h1.2, h2⟩]
      decide
    · rw [if_pos h1, if_neg h2, if_neg fun h => h2 h.2.2]
      decide
  · have hn : ¬(s.lowU ≤ ((s.srcByte r c).toNat : Int) ∧ ((s.srcByte r c).toNat : Int) ≤ s.highU ∧
        s.lowV ≤ ((s.src1Byte r c).toNat : Int) ∧ ((s.src1Byte r c).toNat : Int) ≤ s.highV) := fun h => h1 ⟨h.1, h.2.1⟩
    rw [if_neg h1, if_neg hn]
    exact BitVec.zero_and

/-! ### `ADAPT`: the table of phase 1 leaves the source pixels, and phase 2 leaves the table -/

/-- A pixel of the source is no byte of the table. -/
theorem srcByte_after_integ (s t : State) (h : Legal (integBuffers s) s) (ht : t.mem = integWrites s)
    (he : t.epoch = s.epoch) (r c : Nat) (hr : r < s.rows) (hc : c < s.cols) :
    t.byte (s.src0Base + r * s.src0Stride + c) = s.srcByte r c := by
  refine byte_eq_of_get? s t _ he ?_
  rw [ht]
  refine integWrites_get?_of_outside s _ ?_
  have hx := h.2.2.2 (s.tab .output) (by simp [integBuffers]) rfl (s.src0 s.cols) (by simp [integBuffers])
    (by simp [State.tab, State.src0])
  rw [tab_extent] at hx
  have hs : (s.src0 s.cols).extent = (s.rows - 1) * s.src0Stride + s.cols := by
    rw [Buffer.extent, if_neg (by simp only [State.src0]; omega)]
    rfl
  have hm : r * s.src0Stride ≤ (s.rows - 1) * s.src0Stride := Nat.mul_le_mul_right _ (by omega)
  have ht0 : 0 < 4 * ((s.rows + 1) * (s.cols + 1)) := by positivity
  rw [hs] at hx
  change ¬(_ ∧ _ ∧ s.tabBase < s.src0Base + _ ∧ s.src0Base < s.tabBase + _) at hx
  by_contra hcon
  exact hx ⟨ht0, by omega, by omega, by omega⟩

/-- Legal operands of `ADAPT` are legal operands of `INTEG`. -/
theorem legal_integ_of_adapt (s : State) (h : Legal (adaptBuffers s) s) : Legal (integBuffers s) s := by
  refine ⟨h.1, h.2.1, fun b hb => h.2.2.1 b ?_, fun b hb ho c hc => h.2.2.2 b ?_ ho c ?_⟩
  all_goals
    simp only [integBuffers, adaptBuffers, List.mem_cons, List.not_mem_nil, or_false] at *
    tauto

/-- An entry of the table keeps its word when bytes outside the table are written. -/
theorem word_eq_of_outside (s t u : State) (r c : Nat) (hr : r ≤ s.rows) (hc : c ≤ s.cols)
    (h : ∀ k, s.tabBase ≤ k → k < s.tabBase + 4 * ((s.rows + 1) * (s.cols + 1)) → t.byte k = u.byte k) :
    t.word (s.taddr r c) = u.word (s.taddr r c) := by
  have hm : r * (s.cols + 1) ≤ s.rows * (s.cols + 1) := Nat.mul_le_mul_right _ hr
  have e : (s.rows + 1) * (s.cols + 1) = s.rows * (s.cols + 1) + (s.cols + 1) := by ring
  have hb : ∀ k < 4, t.byte (s.taddr r c + k) = u.byte (s.taddr r c + k) := by
    intro k hk
    refine h _ ?_ ?_ <;> unfold State.taddr <;> omega
  have h0 := hb 0 (by omega)
  rw [Nat.add_zero] at h0
  unfold State.word
  rw [h0, hb 1 (by omega), hb 2 (by omega), hb 3 (by omega)]

/-! ### The invariant's memory part -/

/-- An image written to a region that is in memory adds no address that does not exist. -/
theorem mem_writeRows_imageOf_lt (m : Memory) (b : Buffer) (bound : Nat) (f : Nat → Nat → Byte)
    (hm : ∀ c ∈ m, c.1 < bound) (hb : 0 < b.extent → b.base + b.extent ≤ bound) :
    ∀ c ∈ m.writeRows b.base b.stride (imageOf b.nrows b.rowbytes f), c.1 < bound := by
  refine Memory.mem_writeRows_lt _ _ _ _ _ hm fun r hr => ?_
  simp only [imageOf_length] at hr
  simp only [imageOf_getElem, List.length_map, List.length_range]
  by_cases h0 : b.rowbytes = 0
  · exact .inl h0
  · right
    have := addr_lt_of_inMemory b bound hb r (b.rowbytes - 1) hr (by omega)
    unfold Buffer.addr at this
    omega

theorem deintBody_wf (s : State) (h : s.mem.wf = true) : (deintBody s).mem.wf = true :=
  Memory.wf_writeRows _ _ _ _ (Memory.wf_writeRows _ _ _ _ h)

theorem integWrites_wf (s : State) (h : s.mem.wf = true) : (integWrites s).wf = true := Memory.wf_writeRows _ _ _ _ h

theorem athrBody_wf (s : State) (h : s.mem.wf = true) : (athrBody s).mem.wf = true := Memory.wf_writeRows _ _ _ _ h

theorem rangeBody_wf (s : State) (h : s.mem.wf = true) : (rangeBody s).mem.wf = true := Memory.wf_writeRows _ _ _ _ h

theorem deintBody_lt (s : State) (hl : Legal (deintBuffers s) s) (h : ∀ c ∈ s.mem, c.1 < s.cfg.memSize) :
    ∀ c ∈ (deintBody s).mem, c.1 < s.cfg.memSize :=
  mem_writeRows_imageOf_lt _ (s.dst1 s.cols) _ _
    (mem_writeRows_imageOf_lt _ (s.dst0 s.cols) _ _ h (legal_bound _ s hl _ (by simp [deintBuffers])))
    (legal_bound _ s hl _ (by simp [deintBuffers]))

theorem athrBody_lt (s : State) (hb : 0 < (s.dst0 s.cols).extent → s.dst0Base + (s.dst0 s.cols).extent ≤ s.cfg.memSize)
    (h : ∀ c ∈ s.mem, c.1 < s.cfg.memSize) : ∀ c ∈ (athrBody s).mem, c.1 < s.cfg.memSize :=
  mem_writeRows_imageOf_lt _ (s.dst0 s.cols) _ _ h hb

theorem rangeBody_lt (s : State) (hl : Legal (rangeBuffers s) s) (h : ∀ c ∈ s.mem, c.1 < s.cfg.memSize) :
    ∀ c ∈ (rangeBody s).mem, c.1 < s.cfg.memSize :=
  mem_writeRows_imageOf_lt _ (s.dst0 s.cols) _ _ h (legal_bound _ s hl _ (by simp [rangeBuffers]))

theorem integWrites_lt (s : State) (hb : s.tabBase + 4 * ((s.rows + 1) * (s.cols + 1)) ≤ s.cfg.memSize)
    (h : ∀ c ∈ s.mem, c.1 < s.cfg.memSize) : ∀ c ∈ integWrites s, c.1 < s.cfg.memSize := by
  refine Memory.mem_writeRows_lt _ _ _ _ _ h fun r hr => .inr ?_
  simp only [List.length_map] at hr
  rw [List.getElem_map, integTable_row_bytes]
  rw [integTable_length] at hr
  have hm : r * (4 * (s.cols + 1)) ≤ s.rows * (4 * (s.cols + 1)) := Nat.mul_le_mul_right _ (by omega)
  have e : 4 * ((s.rows + 1) * (s.cols + 1)) = s.rows * (4 * (s.cols + 1)) + 4 * (s.cols + 1) := by ring
  omega

end Sys2Proof.Machine
end

