-- ==== Sys2Proof/Laws/Decode.lean ====
section
/-! SUPPORT. The fields of an encoded transaction, and which command words decode. -/

namespace Sys2Proof

/-- The fields of a format H transaction written from its parts (30_encoding.md R96). -/
theorem transaction_fields (b : BitVec 1) (off : BitVec 8) (v : Word) :
    transactionIsWrite (b ++ off ++ v) = b.getLsbD 0 ∧ transactionOffset (b ++ off ++ v) = off ∧
      transactionData (b ++ off ++ v) = v := by
  refine ⟨?_, ?_, ?_⟩
  · simp only [transactionIsWrite, BitVec.getLsbD_append]
    rfl
  · apply BitVec.eq_of_getLsbD_eq
    intro i hi
    simp only [transactionOffset, BitVec.getLsbD_extractLsb', BitVec.getLsbD_append]
    simp [hi, show ¬32 + i < 32 by omega, show 32 + i - 32 = i by omega]
  · apply BitVec.eq_of_getLsbD_eq
    intro i hi
    simp only [transactionData, BitVec.getLsbD_extractLsb', BitVec.getLsbD_append]
    simp [hi]

/-- A command word from its two fields (30_encoding.md R90). -/
theorem toNat_of_fields (w : Word) : w.toNat = (w.extractLsb' 8 24).toNat * 256 + (w.extractLsb' 0 8).toNat := by
  simp only [BitVec.extractLsb'_toNat, Nat.shiftRight_eq_div_pow]
  have := w.isLt
  omega

/-- Each opcode is selected by its one word (30_encoding.md R92). -/
theorem encode_of_opcodeOf (w : Word) (op : Opcode) (h : opcodeOf w = some op) : encode op.instr = .command w := by
  unfold opcodeOf at h
  split at h
  · rename_i h0
    have hz : (w.extractLsb' 8 24).toNat = 0 := by rw [h0]; rfl
    have hw := toNat_of_fields w
    rw [hz, Nat.zero_mul, Nat.zero_add] at hw
    split at h <;> simp only [Option.some.injEq, reduceCtorEq] at h <;> subst h <;>
      simp only [Opcode.instr, encode, HostWord.command.injEq] <;> apply BitVec.eq_of_toNat_eq <;> rw [hw] <;> simp_all
  · simp at h

/-- The illegal words of R93. -/
theorem opcodeOf_eq_none_iff (w : Word) :
    opcodeOf w = none ↔ w.extractLsb' 8 24 ≠ 0 ∨ 0x06 ≤ (w.extractLsb' 0 8).toNat := by
  unfold opcodeOf
  split
  · have : (w.extractLsb' 0 8).toNat < 256 := (w.extractLsb' 0 8).isLt
    split <;> simp_all
    omega
  · simp_all

/-- What an access to the window decodes to is well formed. -/
theorem wf_of_accessAt (isWrite : Bool) (off : BitVec 8) (data : Word) (i : Instr)
    (h : accessAt isWrite off data = .ok i) : i.wf = true := by
  simp only [accessAt] at h
  split at h
  · cases h
  · split at h
    · split at h <;> cases h <;> simp_all [Instr.wf, offsetWf]
    · cases h

/-- An offset of the window as a number (30_encoding.md R96). -/
theorem offsetWf_iff (off : BitVec 8) : offsetWf off = true ↔ off.toNat ≤ 0x7C ∧ off.toNat % 4 = 0 := by
  revert off
  decide

/-- Bit 7 and the two low bits of an offset as numbers. -/
theorem offset_bit7 (off : BitVec 8) : off.getLsbD 7 = decide (0x80 ≤ off.toNat) := by
  revert off
  decide

theorem offset_low (off : BitVec 8) : off.extractLsb' 0 2 = 0 ↔ off.toNat % 4 = 0 := by
  revert off
  decide

end Sys2Proof
end

