-- ==== Sys2Proof/Laws/Flags.lean ====
section
/-! SUPPORT. The bits of `STATUS` one by one (10_state.md R33). -/

namespace Sys2Proof.Machine.Status

@[simp] theorem bits_done (f : Status) : f.bits.getLsbD 0 = f.done := by
  obtain ⟨a, b, c⟩ := f
  revert a b c
  decide

@[simp] theorem bits_err (f : Status) : f.bits.getLsbD 1 = f.err := by
  obtain ⟨a, b, c⟩ := f
  revert a b c
  decide

@[simp] theorem bits_ovf (f : Status) : f.bits.getLsbD 2 = f.ovf := by
  obtain ⟨a, b, c⟩ := f
  revert a b c
  decide

@[simp] theorem issued_done (f : Status) : f.issued.done = false := rfl
@[simp] theorem issued_err (f : Status) : f.issued.err = false := rfl
@[simp] theorem issued_ovf (f : Status) : f.issued.ovf = f.ovf := rfl
@[simp] theorem completed_done (f : Status) : f.completed.done = true := rfl
@[simp] theorem completed_err (f : Status) : f.completed.err = f.err := rfl
@[simp] theorem completed_ovf (f : Status) : f.completed.ovf = f.ovf := rfl
@[simp] theorem rejected_done (f : Status) : f.rejected.done = f.done := rfl
@[simp] theorem rejected_err (f : Status) : f.rejected.err = true := rfl
@[simp] theorem rejected_ovf (f : Status) : f.rejected.ovf = f.ovf := rfl
@[simp] theorem clearedBy_done (v : Word) (f : Status) : (f.clearedBy v).done = (f.done && !v.getLsbD 0) := rfl
@[simp] theorem clearedBy_err (v : Word) (f : Status) : (f.clearedBy v).err = (f.err && !v.getLsbD 1) := rfl
@[simp] theorem clearedBy_ovf (v : Word) (f : Status) : (f.clearedBy v).ovf = (f.ovf && !v.getLsbD 2) := rfl
@[simp] theorem notedTotal_done (n : Nat) (f : Status) : (f.notedTotal n).done = f.done := rfl
@[simp] theorem notedTotal_err (n : Nat) (f : Status) : (f.notedTotal n).err = f.err := rfl
@[simp] theorem notedTotal_ovf (n : Nat) (f : Status) :
    (f.notedTotal n).ovf = (f.ovf || decide (2 ^ 31 - 1 < n)) := rfl

end Sys2Proof.Machine.Status
end

