-- ==== Sys2Proof/Laws/System.lean ====
section
/-! SUPPORT. Everything a write to `CMD` can do, and the window's registers by offset. -/

namespace Sys2Proof.Machine

/-- A write to `CMD` is the issue of its word (44_system.md R211). -/
theorem exec_wr_cmd (w : Word) (s : State) : exec (.wr 0x04 w) s = .next (issueWord w s) := rfl

/-- No operand test answers `E_OPCODE` (60_exceptions.md R252). -/
theorem error_ne_opcode_of_validateWith (buffers : State → List Buffer) (s : State) (r : Rejection)
    (h : validateWith buffers s = some r) : r.error ≠ .opcode := by
  have find : ∀ (bufs : List Buffer) (f : Buffer → Option Rejection), (∀ b r, f b = some r → r.error ≠ .opcode) →
      ∀ r, bufs.findSome? f = some r → r.error ≠ .opcode := by
    intro bufs f hf r hr
    obtain ⟨b, -, hb⟩ := List.exists_of_findSome?_eq_some hr
    exact hf _ _ hb
  simp only [validateWith, Option.or_eq_some_iff] at h
  rcases h with h | ⟨-, h | ⟨-, h | ⟨-, h | ⟨-, h⟩⟩⟩⟩
  · unfold checkGeometry at h
    split at h
    · cases h
      simp
    · split at h <;> cases h
      simp
  · refine find _ _ (fun b r h => ?_) _ h
    split at h
    · split at h <;> cases h
      simp
    · cases h
  all_goals
    refine find _ _ (fun b r h => ?_) _ h
    split at h <;> cases h
    simp

/-- Every issue ends rejected or completed: with `E_OPCODE` and the word exactly when the word is illegal
(60_exceptions.md R250, 30_encoding.md R93). -/
theorem issueWord_cases (w : Word) (s : State) :
    (opcodeOf w = none ∧ issueWord w s = s.rejected w .opcode w) ∨
      (opcodeOf w ≠ none ∧ ((∃ e i, e ≠ .opcode ∧ issueWord w s = s.rejected w e i) ∨
        ∃ m o, issueWord w s = s.completed w m o)) := by
  cases h : opcodeOf w with
  | none =>
    refine .inl ⟨rfl, ?_⟩
    unfold issueWord
    rw [h]
    rfl
  | some op =>
    have hw := encode_of_opcodeOf w op h
    refine .inr ⟨by simp, ?_⟩
    unfold issueWord
    rw [h]
    cases op <;> simp only [Opcode.instr, encode, HostWord.command.injEq] at hw <;> subst hw
    · exact .inr ⟨_, _, nopCommand_eq s⟩
    · simp only [deintCommand_eq]
      cases hv : validateWith deintBuffers s with
      | some r => exact .inl ⟨_, _, error_ne_opcode_of_validateWith _ _ _ hv, rfl⟩
      | none => exact .inr ⟨_, _, rfl⟩
    · simp only [integCommand_eq]
      cases hv : validateWith integBuffers s with
      | some r => exact .inl ⟨_, _, error_ne_opcode_of_validateWith _ _ _ hv, rfl⟩
      | none => exact .inr ⟨_, _, rfl⟩
    · simp only [athrCommand_eq]
      cases hv : validateWith athrBuffers s with
      | some r => exact .inl ⟨_, _, error_ne_opcode_of_validateWith _ _ _ hv, rfl⟩
      | none => exact .inr ⟨_, _, rfl⟩
    · simp only [adaptCommand_eq]
      cases hv : validateWith adaptBuffers s with
      | some r => exact .inl ⟨_, _, error_ne_opcode_of_validateWith _ _ _ hv, rfl⟩
      | none => exact .inr ⟨_, _, rfl⟩
    · simp only [rangeCommand_eq]
      cases hv : validateWith rangeBuffers s with
      | some r => exact .inl ⟨_, _, error_ne_opcode_of_validateWith _ _ _ hv, rfl⟩
      | none => exact .inr ⟨_, _, rfl⟩

/-- The register at an offset of the window, by its number (10_state.md R20, R30). -/
theorem windowReg_eq (off : BitVec 8) (h1 : off.toNat ≤ 0x7C) (h2 : off.toNat % 4 = 0) : windowReg off =
    if off.toNat = 0x00 then .id
    else if off.toNat = 0x04 then .cmd
    else if off.toNat = 0x08 then .status
    else if off.toNat = 0x0C then .ecause
    else if off.toNat = 0x10 then .eval
    else if off.toNat < 0x40 then .reserved
    else .operand (Fin.ofNat 16 ((off.toNat - 0x40) / 4)) := by
  revert off
  decide

/-- `WR` at a word of the window. -/
theorem execWr_of_wf (off : BitVec 8) (val : Word) (s : State) (h1 : off.toNat ≤ 0x7C) (h2 : off.toNat % 4 = 0) :
    execWr off val s = .next (writeWindow (windowReg off) val s) := by
  rw [execWr, offset_bit7, if_neg (by simp; omega), if_pos ((offset_low off).2 h2)]

/-- `RD` at a word of the window. -/
theorem execRd_of_wf (off : BitVec 8) (s : State) (h1 : off.toNat ≤ 0x7C) (h2 : off.toNat % 4 = 0) :
    execRd off s = .next (s.setReadData (readWindow (windowReg off) s)) := by
  rw [execRd, offset_bit7, if_neg (by simp; omega), if_pos ((offset_low off).2 h2)]

end Sys2Proof.Machine
end

