-- ==== Sys2Proof/Laws/Step.lean ====
section
/-! SUPPORT. Everything an instruction and a step can do. -/

namespace Sys2Proof.Machine

/-- Whatever is issued, the operand registers, the parameters and the model's own fields stay (10_state.md R22). -/
theorem issueWord_frame (w : Word) (s : State) : issueWord w s =
    { s with cmd := w, status := (issueWord w s).status, ecause := (issueWord w s).ecause, eval := (issueWord w s).eval,
             mem := (issueWord w s).mem } := by
  rcases issueWord_cases w s with ⟨-, h⟩ | ⟨-, ⟨e, i, -, h⟩ | ⟨m, o, h⟩⟩ <;> rw [h] <;> rfl

theorem issueWord_x (w : Word) (s : State) : (issueWord w s).x = s.x := by rw [issueWord_frame]
theorem issueWord_cfg (w : Word) (s : State) : (issueWord w s).cfg = s.cfg := by rw [issueWord_frame]
theorem issueWord_pending (w : Word) (s : State) : (issueWord w s).pending = s.pending := by rw [issueWord_frame]
theorem issueWord_epoch (w : Word) (s : State) : (issueWord w s).epoch = s.epoch := by rw [issueWord_frame]

/-- The register number of an operand's offset (10_state.md R20). -/
theorem toNat_of_windowReg_operand (off : BitVec 8) (k : Fin 16) (hwf : offsetWf off = true)
    (h : windowReg off = .operand k) : off.toNat = 0x40 + 4 * k.val := by
  rw [offsetWf_iff] at hwf
  rw [windowReg_eq off hwf.1 hwf.2] at h
  repeat' split at h
  all_goals cases h
  simp only [Fin.val_ofNat]
  omega

/-- An instruction that answers a next state is the issue of a word, or a host access that reaches the window or does
not. -/
theorem exec_next_cases (i : Instr) (s t : State) (h : exec i s = .next t) :
    (∃ w, exec i s = exec (.wr 0x04 w) s ∧ t = issueWord w s) ∨
      (∃ off val, i = .wr off val ∧ (t = s ∨ offsetWf off = true ∧ t = writeWindow (windowReg off) val s)) ∨
      ∃ off, i = .rd off ∧ (t = s ∨ t = s.setReadData (readWindow (windowReg off) s)) := by
  cases i with
  | nop => cases h; exact .inl ⟨0, rfl, rfl⟩
  | deint => cases h; exact .inl ⟨1, rfl, rfl⟩
  | integ => cases h; exact .inl ⟨2, rfl, rfl⟩
  | athr => cases h; exact .inl ⟨3, rfl, rfl⟩
  | adapt => cases h; exact .inl ⟨4, rfl, rfl⟩
  | range => cases h; exact .inl ⟨5, rfl, rfl⟩
  | wr off val =>
    refine .inr (.inl ⟨off, val, rfl, ?_⟩)
    change execWr off val s = _ at h
    unfold execWr at h
    split at h
    · cases h
      exact .inl rfl
    · split at h
      · cases h
        exact .inr ⟨by simp_all [offsetWf], rfl⟩
      · cases h
  | rd off =>
    refine .inr (.inr ⟨off, rfl, ?_⟩)
    change execRd off s = _ at h
    unfold execRd at h
    split at h
    · cases h
      exact .inl rfl
    · split at h
      · cases h
        exact .inr rfl
      · cases h

/-- No instruction faults, and only an access to the window with no meaning is refused. -/
theorem exec_not_fault (i : Instr) (s : State) (f : Fault) : exec i s ≠ .fault f := by
  cases i with
  | wr off val =>
    change execWr off val s ≠ _
    unfold execWr
    repeat' split
    all_goals simp
  | rd off =>
    change execRd off s ≠ _
    unfold execRd
    repeat' split
    all_goals simp
  | _ => intro h; cases h

theorem refused_of_exec (i : Instr) (s : State) (r : Refusal) (h : exec i s = .refused r) :
    r = .windowAccessNoMeaning ∧ i.wf = false := by
  cases i with
  | wr off val =>
    change execWr off val s = _ at h
    unfold execWr at h
    repeat' split at h
    all_goals cases h
    exact ⟨rfl, by simp_all [Instr.wf, offsetWf]⟩
  | rd off =>
    change execRd off s = _ at h
    unfold execRd at h
    repeat' split at h
    all_goals cases h
    exact ⟨rfl, by simp_all [Instr.wf, offsetWf]⟩
  | _ => cases h

/-- A write to the window changes an operand register only as the write of that register. -/
theorem writeWindow_x_cases (r : WindowReg) (val : Word) (s : State) (i : Fin 16)
    (h : (writeWindow r val s).x[i] ≠ s.x[i]) : r = .operand i ∧ (writeWindow r val s).x[i] = val := by
  cases r with
  | operand k =>
    simp only [writeWindow, State.setReg] at h ⊢
    by_cases hk : k = i
    · subst hk
      exact ⟨rfl, by simp⟩
    · refine absurd ?_ h
      simp only [Fin.getElem_fin]
      rw [Vector.getElem_set_ne _ _ fun h' => hk (Fin.ext h')]
  | cmd => exact absurd (by simp only [writeWindow, issueWord_x]) h
  | _ => exact absurd rfl h

/-- The step of a machine whose host has a next step. -/
theorem step_cons (s : State) (h : HostStep) (rest : List HostStep) (hp : s.pending = h :: rest) : step s =
    match h.decoded s.cfg with
    | some d => runDecoded d (s.setPending rest)
    | none => runHostStep h (s.setPending rest) := by
  cases hd : h.decoded s.cfg <;> simp only [step, hp, hd]

/-- The step of a machine whose host has none. -/
theorem step_nil (s : State) (hp : s.pending = []) : step s = .next s := by
  simp only [step, hp, idle]

/-- Everything a step to a next state can be: nothing to do, an instruction, bits that are no instruction, or one of the
host's other steps. -/
theorem step_next_cases (s t : State) (h : step s = .next t) :
    (s.pending = [] ∧ t = s) ∨ ∃ hd rest, s.pending = hd :: rest ∧
      ((∃ i, hd.decoded s.cfg = some (.ok i) ∧ exec i (s.setPending rest) = .next t) ∨
        (∃ w, t = rejectWord w (s.setPending rest)) ∨ t = s.setPending rest ∨
        (∃ w, t = (s.setPending rest).setReadData w) ∨
        (∃ (a : Word) (bs : List Byte), a.toNat + bs.length ≤ s.cfg.memSize ∧
          t = (s.setPending rest).writeBytes a.toNat bs) ∨
        (hd = .rst ∧ t = (s.setPending rest).applyRst) ∨
        (hd = .powerCycle ∧ t = (s.setPending rest).applyPowerCycle)) := by
  cases hp : s.pending with
  | nil =>
    rw [step_nil s hp] at h
    cases h
    exact .inl ⟨rfl, rfl⟩
  | cons hd rest =>
    refine .inr ⟨hd, rest, rfl, ?_⟩
    rw [step_cons s hd rest hp] at h
    cases hdec : hd.decoded s.cfg with
    | some d =>
      rw [hdec] at h
      cases d with
      | ok i => exact .inl ⟨i, rfl, h⟩
      | error r =>
        cases r with
        | illegalCommand w => cases h; exact .inr (.inl ⟨w, rfl⟩)
        | outsideWindow => cases h; exact .inr (.inr (.inl rfl))
        | windowAccessNoMeaning => cases h
    | none =>
      rw [hdec] at h
      cases hd with
      | word hw => cases hdec
      | bus a => cases hdec
      | memRead a w =>
        simp only [runHostStep, hostMemRead] at h
        split at h
        · cases h
          exact .inr (.inr (.inr (.inl ⟨_, rfl⟩)))
        · cases h
      | memWrite a w v =>
        simp only [runHostStep, hostMemWrite] at h
        split at h
        · rename_i hle
          cases h
          refine .inr (.inr (.inr (.inr (.inl ⟨a, _, ?_, rfl⟩))))
          cases w <;> exact hle
        · cases h
      | rst => cases h; exact .inr (.inr (.inr (.inr (.inr (.inl ⟨rfl, rfl⟩)))))
      | powerCycle => cases h; exact .inr (.inr (.inr (.inr (.inr (.inr ⟨rfl, rfl⟩)))))

end Sys2Proof.Machine
end

