-- ==== Sys2Proof/Laws/Invariant.lean ====
section
/-! SUPPORT. The invariant over the two ends of an issue and over the model's fields; the operands of `ADAPT` as those of
`INTEG` and of `ATHR`. -/

namespace Sys2Proof.Machine

theorem rejectWord_eq (w : Word) (s : State) : rejectWord w s = s.rejected w .opcode w := rfl

theorem invariant_rejected (s : State) (w : Word) (e : CmdError) (i : Word) (h : Invariant s) :
    Invariant (s.rejected w e i) := by
  obtain ⟨h1, h2, h3, -⟩ := h
  exact ⟨h1, h2, h3, by simp, by simp, by simp, by simp⟩

theorem invariant_completed (s : State) (w : Word) (m : Memory) (o : Bool) (h : Invariant s) (hw : m.wf = true)
    (hl : ∀ c ∈ m, c.1 < s.cfg.memSize) : Invariant (s.completed w m o) := by
  obtain ⟨h1, -, -, -⟩ := h
  exact ⟨h1, hw, hl, by simp, by simp, by simp, by simp⟩

/-- A host write to `STATUS` only clears bits (10_state.md R33). -/
theorem invariant_clearedBy (s : State) (v : Word) (h : Invariant s) :
    Invariant (s.setStatus (s.status.clearedBy v)) := by
  obtain ⟨h1, h2, h3, h4, h5, h6, h7⟩ := h
  refine ⟨h1, h2, h3, ?_, ?_, ?_, h7⟩
  all_goals simp only [State.setStatus, Status.clearedBy, Bool.and_eq_true]
  · rintro ⟨⟨a, -⟩, b, -⟩
    exact h4 ⟨a, b⟩
  · rintro ⟨a, -⟩
    exact h5 a
  · rintro ⟨a, -⟩
    exact h6 a

/-- A host write of bytes that are in memory. -/
theorem invariant_writeBytes (s : State) (a : Nat) (bs : List Byte) (hb : a + bs.length ≤ s.cfg.memSize)
    (h : Invariant s) : Invariant (s.writeBytes a bs) := by
  obtain ⟨h1, h2, h3, h4⟩ := h
  refine ⟨h1, Memory.wf_writeRun _ _ _ h2, fun c hc => ?_, h4⟩
  rcases Memory.mem_writeRun _ _ _ _ hc with hc | hc
  · exact h3 c hc
  · change c.1 < s.cfg.memSize
    omega

/-- The table of legal operands is in memory: it is never empty (20_memory.md R68, R70). -/
theorem legal_tab_bound (bufs : List Buffer) (s : State) (d : Direction) (h : Legal bufs s) (hb : s.tab d ∈ bufs) :
    s.tabBase + 4 * ((s.rows + 1) * (s.cols + 1)) ≤ s.cfg.memSize := by
  have := legal_bound bufs s h (s.tab d) hb
  rw [tab_extent] at this
  exact this (by positivity)

/-- The operands of `ADAPT` are legal exactly when they are legal for `INTEG` and for `ATHR` (42_athr.md R172, R173). -/
theorem legal_adapt_iff (s : State) :
    Legal (adaptBuffers s) s ↔ Legal (integBuffers s) s ∧ Legal (athrBuffers s) s := by
  simp only [Legal, adaptBuffers, integBuffers, athrBuffers, List.forall_mem_cons, State.src0, State.tab, State.dst0,
    reduceCtorEq, ne_eq, not_true, not_false_eq_true, true_imp_iff, List.not_mem_nil, IsEmpty.forall_iff, implies_true,
    true_and, and_true, Buffer.extent]
  constructor
  · intro h
    refine ⟨?_, ?_⟩ <;> omega
  · intro h
    omega

end Sys2Proof.Machine
end

