-- ==== Sys2Proof/Laws/PerInstr.lean ====
section
/-! SUPPORT. One lemma per instruction: the shape of its encoding (30_encoding.md R90, R92, R96). -/

namespace Sys2Proof.Laws.EncodingShape

/-- A command is a format C word, reserved bits zero and an opcode below 6; a host access is a format H transaction with its
direction, offset and data in their fields. -/
def Statement (i : Instr) : Prop :=
  match encode i with
  | .command w => Machine.isCommand i = true ∧ w.extractLsb' 8 24 = 0 ∧ (w.extractLsb' 0 8).toNat < 6
  | .transaction t =>
    Machine.isCommand i = false ∧
      ((transactionIsWrite t = true ∧ i = .wr (transactionOffset t) (transactionData t)) ∨
        (transactionIsWrite t = false ∧ transactionData t = 0 ∧ i = .rd (transactionOffset t)))

theorem nop : Statement .nop := ⟨rfl, by decide, by decide⟩

theorem deint : Statement .deint := ⟨rfl, by decide, by decide⟩

theorem integ : Statement .integ := ⟨rfl, by decide, by decide⟩

theorem athr : Statement .athr := ⟨rfl, by decide, by decide⟩

theorem adapt : Statement .adapt := ⟨rfl, by decide, by decide⟩

theorem range : Statement .range := ⟨rfl, by decide, by decide⟩

theorem wr (off : BitVec 8) (val : Word) : Statement (.wr off val) := by
  obtain ⟨h1, h2, h3⟩ := transaction_fields 1#1 off val
  exact ⟨rfl, .inl ⟨by rw [h1]; rfl, by rw [h2, h3]⟩⟩

theorem rd (off : BitVec 8) : Statement (.rd off) := by
  obtain ⟨h1, h2, h3⟩ := transaction_fields 0#1 off 0#32
  exact ⟨rfl, .inr ⟨by rw [h1]; rfl, h3, by rw [h2]⟩⟩

end Sys2Proof.Laws.EncodingShape
end

