-- ==== Sys2Proof/Laws/Pixels.lean ====
section
/-! SUPPORT. Exact sums of pixels: bounds, monotonicity, the four-corner identity (41_integ.md R145, R146). -/

namespace Sys2Proof.Machine

theorem pixel_le (s : State) (r c : Nat) : (s.srcByte r c).toNat ≤ 255 := by
  have := (s.srcByte r c).isLt
  omega

/-- A sum of pixels is at most 255 for each pixel. -/
theorem pixelSum_le (s : State) (r0 r1 c0 c1 : Nat) : pixelSum s r0 r1 c0 c1 ≤ (r1 - r0) * ((c1 - c0) * 255) := by
  unfold pixelSum
  have hrow : ∀ r ∈ Finset.Ico r0 r1, ∑ c ∈ Finset.Ico c0 c1, (s.srcByte r c).toNat ≤ (c1 - c0) * 255 := by
    intro r _
    refine (Finset.sum_le_card_nsmul _ _ 255 fun c _ => pixel_le s r c).trans ?_
    simp
  refine (Finset.sum_le_card_nsmul _ _ _ hrow).trans ?_
  simp

/-- A block of the binarizer, 15 by 15 pixels, has at most `225*255` (41_integ.md R145). -/
theorem pixelSum_block_le (s : State) (r c : Nat) : pixelSum s r (r + 15) c (c + 15) ≤ 57375 := by
  refine (pixelSum_le s _ _ _ _).trans ?_
  simp

/-- A larger rectangle has the larger sum. -/
theorem pixelSum_mono (s : State) (r r' c c' : Nat) (hr : r ≤ r') (hc : c ≤ c') :
    pixelSum s 0 r 0 c ≤ pixelSum s 0 r' 0 c' := by
  unfold pixelSum
  calc ∑ i ∈ Finset.Ico 0 r, ∑ j ∈ Finset.Ico 0 c, (s.srcByte i j).toNat
      ≤ ∑ i ∈ Finset.Ico 0 r, ∑ j ∈ Finset.Ico 0 c', (s.srcByte i j).toNat :=
        Finset.sum_le_sum fun i _ => Finset.sum_le_sum_of_subset (Finset.Ico_subset_Ico_right hc)
    _ ≤ ∑ i ∈ Finset.Ico 0 r', ∑ j ∈ Finset.Ico 0 c', (s.srcByte i j).toNat :=
        Finset.sum_le_sum_of_subset (Finset.Ico_subset_Ico_right hr)

/-- Rows split at `r0`. -/
theorem pixelSum_rows (s : State) (r0 r1 c0 c1 : Nat) (h : r0 ≤ r1) :
    pixelSum s 0 r1 c0 c1 = pixelSum s 0 r0 c0 c1 + pixelSum s r0 r1 c0 c1 := by
  unfold pixelSum
  rw [Finset.sum_Ico_consecutive _ (Nat.zero_le _) h]

/-- Columns split at `c0`. -/
theorem pixelSum_cols (s : State) (r0 r1 c0 c1 : Nat) (h : c0 ≤ c1) :
    pixelSum s r0 r1 0 c1 = pixelSum s r0 r1 0 c0 + pixelSum s r0 r1 c0 c1 := by
  unfold pixelSum
  rw [← Finset.sum_add_distrib]
  exact Finset.sum_congr rfl fun r _ => (Finset.sum_Ico_consecutive _ (Nat.zero_le _) h).symm

/-- The four-corner identity over the integers (41_integ.md R145). -/
theorem pixelSum_corners (s : State) (r0 r1 c0 c1 : Nat) (hr : r0 ≤ r1) (hc : c0 ≤ c1) :
    pixelSum s 0 r1 0 c1 + pixelSum s 0 r0 0 c0 =
      pixelSum s 0 r0 0 c1 + pixelSum s 0 r1 0 c0 + pixelSum s r0 r1 c0 c1 := by
  have h1 := pixelSum_rows s r0 r1 0 c1 hr
  have h2 := pixelSum_rows s r0 r1 0 c0 hr
  have h3 := pixelSum_cols s r0 r1 c0 c1 hc
  omega

/-- The four corners of a table of sums modulo `2^32` give the rectangle's sum modulo `2^32` (41_integ.md R145). -/
theorem corners_word (s : State) (r0 r1 c0 c1 : Nat) (hr : r0 ≤ r1) (hc : c0 ≤ c1) :
    BitVec.ofNat 32 (pixelSum s 0 r1 0 c1) - BitVec.ofNat 32 (pixelSum s 0 r0 0 c1)
      - BitVec.ofNat 32 (pixelSum s 0 r1 0 c0) + BitVec.ofNat 32 (pixelSum s 0 r0 0 c0) =
      BitVec.ofNat 32 (pixelSum s r0 r1 c0 c1) := by
  have h := congrArg (BitVec.ofNat 32) (pixelSum_corners s r0 r1 c0 c1 hr hc)
  simp only [BitVec.ofNat_add] at h
  generalize BitVec.ofNat 32 (pixelSum s 0 r1 0 c1) = a at *
  generalize BitVec.ofNat 32 (pixelSum s 0 r0 0 c0) = b at *
  generalize BitVec.ofNat 32 (pixelSum s 0 r0 0 c1) = c at *
  generalize BitVec.ofNat 32 (pixelSum s 0 r1 0 c0) = d at *
  generalize BitVec.ofNat 32 (pixelSum s r0 r1 c0 c1) = e at *
  have : a - c - d + b = (a + b) - (c + d) := by ring
  rw [this, h]
  ring

/-- A sum of at most `2^31 - 1` is read back exactly through `s32` (41_integ.md R145, R147). -/
theorem toInt_ofNat_of_le (n : Nat) (h : n ≤ 2147483647) : (BitVec.ofNat 32 n).toInt = (n : Int) := by
  rw [BitVec.toInt_ofNat', Int.bmod_eq_of_le] <;> omega

/-- On the table that `INTEG` writes, the four-corner lookup is the rectangle's sum modulo `2^32` (41_integ.md R145). -/
theorem integWrites_fourCorners (s t : State) (ht : t.mem = integWrites s) (hx : t.x = s.x) (r0 r1 c0 c1 : Nat)
    (hr : r0 ≤ r1) (hr1 : r1 ≤ s.rows) (hc : c0 ≤ c1) (hc1 : c1 ≤ s.cols) :
    t.fourCorners r0 r1 c0 c1 = BitVec.ofNat 32 (pixelSum s r0 r1 c0 c1) := by
  have hw : ∀ r ≤ s.rows, ∀ c ≤ s.cols, t.tableWord r c = BitVec.ofNat 32 (pixelSum s 0 r 0 c) := by
    intro r hr c hc
    have ha : t.taddr r c = s.taddr r c := by simp only [State.taddr, State.tabBase, State.cols, hx]
    rw [State.tableWord, ha, integWrites_word s t ht r c hr hc]
  rw [State.fourCorners, hw _ hr1 _ hc1, hw _ (hr.trans hr1) _ hc1, hw _ hr1 _ (hc.trans hc1),
    hw _ (hr.trans hr1) _ (hc.trans hc1), corners_word s _ _ _ _ hr hc]

end Sys2Proof.Machine
end

