-- ==== Sys2Proof/Tests/Slice0.lean ====
section
/-! SUPPORT. Tests of one step each, with the results that spec/95_test_vectors.md lists, and one witness for the hypotheses of
every obligation that has some. -/

namespace Sys2Proof.Tests

set_option Elab.async false

open Sys2Proof.Machine

/-! ### Helpers -/

/-- The reset state with some operand registers and bytes of memory set. -/
def mk (regs : List (Fin 16 × Word)) (mem : Memory) : State :=
  (regs.foldl (fun s r => s.setReg r.1 r.2) State.reset).setMem mem

/-- The state after an instruction. -/
def after (i : Instr) (s : State) : Option State :=
  match exec i s with
  | .next t => some t
  | .fault _ => none
  | .refused _ => none

/-- `(STATUS, ECAUSE, EVAL)` after an instruction. -/
def triple (i : Instr) (s : State) : Option (Word × BitVec 3 × Word) :=
  (after i s).map fun t => (t.status.word, ecauseBits t.ecause, t.eval)

/-- The written bytes from address `a` after an instruction. -/
def bytesAfter (i : Instr) (s : State) (a n : Nat) : Option (List (Option Byte)) :=
  (after i s).map fun t => (List.range n).map fun k => t.mem.get? (a + k)

/-- The word a host read returns. -/
def readBack (off : BitVec 8) (s : State) : Option Word := (after (.rd off) s).bind State.readData

/-- The base registers of the error rows, 95_test_vectors.md section 2.6, with others changed. -/
def base (changed : List (Fin 16 × Word)) : State :=
  mk ([(0, 0x100), (1, 8), (2, 0x200), (3, 4), (4, 0x300), (5, 4), (6, 0x400), (7, 4), (8, 0x1000), (9, 2), (10, 4)]
    ++ changed) []

/-! ### Well-formedness: the check refuses each ill-formed term -/

theorem test_wf_refuses_unaligned : Instr.wf (.wr 0x41 0) = false ∧ Instr.wf (.rd 0x42) = false := by decide

theorem test_wf_refuses_outside : Instr.wf (.wr 0x80 0) = false ∧ Instr.wf (.rd 0xFC) = false := by decide

theorem test_wf_accepts : Instr.wf (.wr 0x7C 1) = true ∧ Instr.wf (.rd 0x00) = true ∧ Instr.wf .deint = true := by decide

/-! ### Decoding of words written out from 30_encoding.md R92 and R96 -/

theorem test_decode_nop : decode (.command 0b00000000000000000000000000000000) = .ok .nop := by decide
theorem test_decode_deint : decode (.command 0b00000000000000000000000000000001) = .ok .deint := by decide
theorem test_decode_integ : decode (.command 0b00000000000000000000000000000010) = .ok .integ := by decide
theorem test_decode_athr : decode (.command 0b00000000000000000000000000000011) = .ok .athr := by decide
theorem test_decode_adapt : decode (.command 0b00000000000000000000000000000100) = .ok .adapt := by decide
theorem test_decode_range : decode (.command 0b00000000000000000000000000000101) = .ok .range := by decide

/-- Direction 1, offset `01101100` (`x11`), data `0x80000005`. -/
theorem test_decode_wr : decode (.transaction 0b10110110010000000000000000000000000000101) = .ok (.wr 0x6C 0x80000005) := by
  decide

/-- Direction 0, offset `00001100` (`ECAUSE`), the data bits of no meaning. -/
theorem test_decode_rd : decode (.transaction 0b00000110000000000000000000000000000000011) = .ok (.rd 0x0C) := by decide

theorem test_decode_illegal : decode (.command 0x00000006) = .error (.illegalCommand 6) ∧
    decode (.command 0x00000101) = .error (.illegalCommand 0x101) ∧
    decode (.command 0xFFFFFFFF) = .error (.illegalCommand 0xFFFFFFFF) := by decide

theorem test_decode_bad_offset : decode (.transaction 0b11000000000000000000000000000000000000000) = .error .outsideWindow ∧
    decode (.transaction 0b10000001000000000000000000000000000000000) = .error .windowAccessNoMeaning := by decide

theorem test_table_words : decodeTableWord 32 3 = some .athr ∧ decodeTableWord 48 0x14000000100 = some (.wr 0x40 0x100) ∧
    decodeTableWord 48 0x00800000000 = some (.rd 0x08) ∧ decodeTableWord 32 0x100000000 = none := by decide

theorem test_fetch : step (State.reset.withFetchWord 32 2) = exec .integ State.reset ∧
    step (State.reset.withFetchWord 48 0x14000000100) = exec (.wr 0x40 0x100) State.reset := ⟨rfl, rfl⟩

/-! ### `DEINT` -/

/-- The start of V-DEINT-1 and V-DEINT-2. -/
def deintStart : State :=
  mk [(0, 0x100), (1, 8), (4, 0x200), (5, 3), (6, 0x300), (7, 4), (9, 2), (10, 3)]
    (Memory.cells 0x100 [0x10, 0x80, 0x11, 0x81, 0x12, 0x82, 0xEE, 0xEF, 0x20, 0x90, 0x21, 0x91, 0x22, 0x92, 0xEE, 0xEF]
      ++ Memory.cells 0x200 (List.replicate 8 0xAA) ++ Memory.cells 0x300 (List.replicate 10 0xBB))

/-- V-DEINT-1. -/
theorem test_deint_strided : triple .deint deintStart = some (1, 0, 0) ∧
    bytesAfter .deint deintStart 0x200 8 =
      some ([0x10, 0x11, 0x12, 0x20, 0x21, 0x22, 0xAA, 0xAA].map some) ∧
    bytesAfter .deint deintStart 0x300 10 =
      some ([0x80, 0x81, 0x82, 0xBB, 0x90, 0x91, 0x92, 0xBB, 0xBB, 0xBB].map some) := by decide +kernel

/-- V-DEINT-2. -/
theorem test_deint_converse :
    let s := { deintStart with cfg := { deintStart.cfg with chromaFirst := .v } }
    bytesAfter .deint s 0x200 8 = some ([0x80, 0x81, 0x82, 0x90, 0x91, 0x92, 0xAA, 0xAA].map some) ∧
    bytesAfter .deint s 0x300 10 =
      some ([0x10, 0x11, 0x12, 0xBB, 0x20, 0x21, 0x22, 0xBB, 0xBB, 0xBB].map some) := by decide +kernel

/-! ### `INTEG` -/

/-- V-INTEG-1: row 3 of the table, 0 12 27 45. -/
theorem test_integ_table :
    let s := mk [(0, 0x100), (1, 3), (8, 0x400), (9, 3), (10, 3)] (Memory.cells 0x100 [1, 2, 3, 4, 5, 6, 7, 8, 9])
    triple .integ s = some (1, 0, 0) ∧ bytesAfter .integ s 0x430 16 =
      some ([0, 0, 0, 0, 0x0C, 0, 0, 0, 0x1B, 0, 0, 0, 0x2D, 0, 0, 0].map some) := by decide +kernel

/-- V-INTEG-2: a stride larger than the row, and words above one byte. -/
theorem test_integ_stride :
    let s := mk [(0, 0x100), (1, 4), (8, 0x400), (9, 2), (10, 2)]
      (Memory.cells 0x100 [0xFF, 0xFF, 0x09, 0x09, 0xFF, 0xFF, 0x09, 0x09])
    bytesAfter .integ s 0x40C 24 =
      some ([0, 0, 0, 0, 0xFF, 0, 0, 0, 0xFE, 1, 0, 0, 0, 0, 0, 0, 0xFE, 1, 0, 0, 0xFC, 3, 0, 0].map some) := by
  decide +kernel

/-! ### `ATHR` and `ADAPT` -/

/-- Common registers of the V-ATHR vectors for a 16 by 16 image. -/
def athrRegs (delta : Word) : List (Fin 16 × Word) :=
  [(0, 0x100), (1, 16), (4, 0x3000), (5, 16), (8, 0x1000), (9, 16), (10, 16), (11, delta)]

/-- A source pixel at `(7, 7)` and the four table words its block reads. -/
def athrStart (delta : Word) (t00 t0f tf0 tff : Word) : State :=
  mk (athrRegs delta) (Memory.cells 0x177 [3] ++ Memory.cells 0x1000 (leBytes t00) ++ Memory.cells 0x103C (leBytes t0f)
    ++ Memory.cells 0x13FC (leBytes tf0) ++ Memory.cells 0x1438 (leBytes tff))

/-- V-ATHR-8: a negative block sum is divided toward zero. -/
theorem test_athr_negative_sum :
    bytesAfter .athr (athrStart 0xFFFFFFFB 0 449 0 0) 0x3077 1 = some [some 0] ∧
    bytesAfter .athr (athrStart 0xFFFFFFFB 0 450 0 0) 0x3077 1 = some [some 0xFF] := by decide +kernel

/-- V-ATHR-9: the block sum wraps to 32 bits. -/
theorem test_athr_sum_wraps :
    bytesAfter .athr (athrStart 5 1 0 0 0x7FFFFFFF) 0x3077 1 = some [some 0xFF] := by decide +kernel

/-- The output byte `(7, 7)` of `ADAPT` on a 16 by 16 image, from the sum of its block: the three other corners are in row 0
or column 0 of the table. -/
theorem adapt_pixel (s : State) (n : Nat) (h : Legal (adaptBuffers s) s) (hr : s.rows = 16) (hc : s.cols = 16)
    (hn : pixelSum s 0 15 0 15 = n) :
    (after .adapt s).map (·.byte (s.dst0Base + 7 * s.dst0Stride + 7)) =
      some (if ((s.srcByte 7 7).toNat : Int) < (BitVec.ofNat 32 n).toInt.tdiv 225 - s.delta then 0x00 else 0xFF) := by
  have hs := srcByte_after_integ s (s.setMem (integWrites s)) (legal_integ_of_adapt _ h) rfl rfl 7 7 (by omega) (by omega)
  have hst := legal_stride _ s h (s.dst0 s.cols) (by simp [adaptBuffers]) (by simp [State.dst0])
  have hb := athrBody_byte (s.setMem (integWrites s)) (adaptCommand s) hst (by rw [adaptCommand_of_legal _ h]; rfl) 7 7
    (show 7 < s.rows by omega) (show 7 < s.cols by omega)
  have hsum : blockSum (s.setMem (integWrites s)) 7 7 = (BitVec.ofNat 32 n).toInt := by
    have h4 := integWrites_fourCorners s (s.setMem (integWrites s)) rfl rfl 0 15 0 15 (by omega) (by omega) (by omega)
      (by omega)
    have hb0 : blockSum (s.setMem (integWrites s)) 7 7 = ((s.setMem (integWrites s)).fourCorners 0 15 0 15).toInt := by
      simp only [blockSum, Config.halfWidth]
    rw [hb0, h4, hn]
  refine congrArg some (hb.trans ?_)
  have hin : inInterior (s.setMem (integWrites s)).rows (s.setMem (integWrites s)).cols 7 7 = true := by
    change inInterior s.rows s.cols 7 7 = true
    rw [hr, hc]
    decide
  unfold athrByte blockMean
  rw [if_pos hin, hsum]
  have hs' : (s.setMem (integWrites s)).srcByte 7 7 = s.srcByte 7 7 := hs
  rw [hs']
  rfl

/-- A 16 by 16 image of 100s but for the pixel `(7, 7)`. -/
def adaptStart (pixel : Byte) : State :=
  mk (athrRegs 5) (Memory.cells 0x100 (List.replicate 119 100 ++ [pixel] ++ List.replicate 136 100))

/-- V-ATHR-2: the sum is 22494, the mean 99, and `94 < 94` is false. -/
theorem test_adapt_not_below :
    (after .adapt (adaptStart 94)).map (·.byte ((adaptStart 94).dst0Base + 7 * (adaptStart 94).dst0Stride + 7)) =
      some 0xFF :=
  (adapt_pixel _ 22494 (by decide +kernel) (by decide +kernel) (by decide +kernel) (by decide +kernel)).trans
    (by decide +kernel)

/-- V-ATHR-2: the sum is 22493, the mean 99, and `93 < 94` is true. -/
theorem test_adapt_below :
    (after .adapt (adaptStart 93)).map (·.byte ((adaptStart 93).dst0Base + 7 * (adaptStart 93).dst0Stride + 7)) =
      some 0x00 :=
  (adapt_pixel _ 22493 (by decide +kernel) (by decide +kernel) (by decide +kernel) (by decide +kernel)).trans
    (by decide +kernel)

/-! ### `RANGE` -/

/-- The planes of section 2.4. -/
def rangeStart (lu hu lv hv : Word) : State :=
  mk [(0, 0x100), (1, 4), (2, 0x200), (3, 4), (4, 0x300), (5, 4), (9, 2), (10, 4), (12, lu), (13, hu), (14, lv), (15, hv)]
    (Memory.cells 0x100 [0x63, 0x64, 0x80, 0x96, 0x97, 0x00, 0xFF, 0x80]
      ++ Memory.cells 0x200 [0x80, 0x80, 0x80, 0x80, 0x80, 0x80, 0x80, 0x63]
      ++ Memory.cells 0x300 (List.replicate 8 0x77))

/-- V-RANGE-1: both ends inclusive, and the AND of the channels. -/
theorem test_range_inclusive : bytesAfter .range (rangeStart 100 150 100 150) 0x300 8 =
    some ([0, 0xFF, 0xFF, 0xFF, 0, 0, 0, 0].map some) := by decide +kernel

/-- V-RANGE-9 and V-RANGE-4: bounds are signed. -/
theorem test_range_signed :
    bytesAfter .range (rangeStart 0x80 0xFFFFFF80 0 0xFF) 0x300 8 = some (List.replicate 8 (some 0)) ∧
    bytesAfter .range (rangeStart 0xFFFFFFFF 0x100 0x80000000 0x7FFFFFFF) 0x300 8 =
      some (List.replicate 8 (some 0xFF)) := by decide +kernel

/-! ### `NOP`, `WR`, `RD` -/

/-- V-ERR-8: `NOP` tests no operand. -/
theorem test_nop_tests_nothing : triple .nop (base [(9, 16385)]) = some (1, 0, 0) := by decide +kernel

/-- V-SYS-3: an illegal word, then its write-one-to-clear. -/
theorem test_wr_illegal_command : triple (.wr 0x04 6) State.reset = some (2, 1, 6) := by decide +kernel

theorem test_wr_status_clears : ((after (.wr 0x04 6) State.reset).bind (triple (.wr 0x08 2))) = some (0, 1, 6) := by
  decide +kernel

/-- V-SYS-1 and V-SYS-4. -/
theorem test_rd_reset : readBack 0x00 State.reset = some 0x53445031 ∧ readBack 0x6C State.reset = some 5 ∧
    readBack 0x3C State.reset = some 0 ∧ readBack 0x7C State.reset = some 0 := by decide +kernel

theorem test_rd_operand : (after (.wr 0x64 0xFFFFFFFF) State.reset).bind (readBack 0x64) = some 0xFFFFFFFF := by
  decide +kernel

/-! ### The rows of section 2.6, a witness for each clause of the error statements -/

/-- `(STATUS, ECAUSE, EVAL)` for each row: the registers the row changes. -/
def rows (i : Instr) (changes : List (List (Fin 16 × Word))) : List (Option (Word × BitVec 3 × Word)) :=
  changes.map fun c => triple i (base c)

/-- V-ERR-5, 9 to 13, 20 to 22, 25, 26, 29 to 32, and the rows for `x10` and for `DST0` beyond memory. -/
theorem witness_DeintErrorsInOrder :
    rows .deint [[(9, 16385)], [(10, 16385)], [(9, 16384), (10, 0)], [(1, 7)], [(5, 3), (7, 3)], [(7, 3)], [(8, 0x1002)],
      [(0, 0xFFF1)], [(0, 0xFFF0)], [(4, 0xFFF9)], [(6, 0xFFFFFFFC)], [(9, 0), (0, 0xFFFFFFF0)], [(4, 0x108)],
      [(6, 0x304)], [(6, 0x308)], [(6, 0x107)]] =
    [some (2, 2, 9), some (2, 2, 0xA), some (1, 0, 0), some (2, 3, 1), some (2, 3, 5), some (2, 3, 7), some (1, 0, 0),
      some (2, 5, 0), some (1, 0, 0), some (2, 5, 4), some (2, 5, 6), some (1, 0, 0), some (2, 6, 4),
      some (2, 6, 4), some (1, 0, 0), some (2, 6, 6)] := by decide +kernel

/-- V-ERR-6, 16, 17, 23, 27, 36 and the first rows of V-ERR-39. -/
theorem witness_IntegErrorsInOrder :
    rows .integ [[(9, 16385), (10, 16385)], [(10, 16385)], [(1, 3)], [(8, 0x1002)], [(0, 0xFFFFFFFF)], [(8, 0xFFC8)],
      [(9, 0), (10, 0), (8, 0xFFFFFFF0)], [(8, 0x100)], [(9, 20000), (1, 0), (8, 3), (0, 0xFFFFFFFF)],
      [(9, 2), (1, 0), (8, 3), (0, 0xFFFFFFFF)]] =
    [some (2, 2, 9), some (2, 2, 0xA), some (2, 3, 1), some (2, 4, 8), some (2, 5, 0), some (2, 5, 8),
      some (2, 5, 8), some (2, 6, 8), some (2, 2, 9), some (2, 3, 1)] := by decide +kernel

/-- V-ERR-18, 35 and the other clauses on the same base. -/
theorem witness_AthrErrorsInOrder :
    rows .athr [[(9, 16385)], [(10, 16385)], [(1, 3)], [(5, 3)], [(8, 0x1002)], [(0, 0xFFFF)], [(8, 0xFFC8)],
      [(4, 0xFFF9)], [(4, 0x1000)], []] =
    [some (2, 2, 9), some (2, 2, 0xA), some (2, 3, 1), some (2, 3, 5), some (2, 4, 8), some (2, 5, 0), some (2, 5, 8),
      some (2, 5, 4), some (2, 6, 4), some (1, 0, 0)] := by decide +kernel

/-- V-ERR-19, 37, 38 and the other clauses on the same base. -/
theorem witness_AdaptErrorsInOrder :
    rows .adapt [[(9, 16385)], [(10, 16385)], [(1, 3)], [(5, 3)], [(8, 0x1001)], [(0, 0xFFFF)], [(8, 0xFFC8)],
      [(4, 0xFFF9)], [(4, 0x100), (5, 8), (8, 0x100)], [(4, 0x100), (5, 8)]] =
    [some (2, 2, 9), some (2, 2, 0xA), some (2, 3, 1), some (2, 3, 5), some (2, 4, 8), some (2, 5, 0), some (2, 5, 8),
      some (2, 5, 4), some (2, 6, 8), some (2, 6, 4)] := by decide +kernel

/-- V-ERR-7, 14, 33, 34 and the other clauses on the same base. -/
theorem witness_RangeErrorsInOrder :
    rows .range [[(9, 16385)], [(10, 16385)], [(1, 3)], [(3, 3)], [(5, 3)], [(0, 0xFFF5)], [(2, 0xFFF9)], [(4, 0xFFF9)],
      [(2, 0x100)], [(4, 0x204)]] =
    [some (2, 2, 9), some (2, 2, 0xA), some (2, 3, 1), some (2, 3, 3), some (2, 3, 5), some (2, 5, 0), some (2, 5, 2),
      some (2, 5, 4), some (1, 0, 0), some (2, 6, 4)] := by decide +kernel

/-! ### Witnesses: encoding -/

theorem witness_DecodeOfEncode : Instr.wf (.wr 0x7C 0xFFFFFFFF) = true ∧ Instr.wf (.rd 0x00) = true ∧
    Instr.wf .range = true := by decide

theorem witness_DecodedWordHasOneMeaning : decode (.command 5) = .ok .range ∧
    decode (.transaction 0b10111110011111111111111111111111111111111) = .ok (.wr 0x7C 0xFFFFFFFF) := by decide

theorem witness_DecodedInstructionIsWellFormed : decode (.command 0) = .ok .nop ∧
    decodeAccess { Config.reference with regBase := 0xFFFFFF80 } ⟨false, 0xFFFFFFFC, 4, 1, 0⟩ = .ok (.rd 0x7C) ∧
    decodeAccess Config.reference ⟨true, 0, 4, 1, 9⟩ = .ok (.wr 0x00 9) := by decide

/-- Both clauses at their boundary: opcode 6, reserved bit 8 and reserved bit 31; opcode 5 with no reserved bit. -/
theorem witness_IllegalWordsAreRejected :
    (0x06 ≤ ((0x00000006 : Word).extractLsb' 0 8).toNat ∧ (0x00000100 : Word).extractLsb' 8 24 ≠ 0 ∧
      (0x80000000 : Word).extractLsb' 8 24 ≠ 0) ∧
    ¬((0x00000005 : Word).extractLsb' 8 24 ≠ 0 ∨ 0x06 ≤ ((0x00000005 : Word).extractLsb' 0 8).toNat) := by decide

/-! ### Witnesses: steps -/

/-- The reset state with the host's next steps. -/
def doing (p : List HostStep) : State := State.reset.setPending p

theorem witness_StepRunsTheDecodedInstruction :
    ((doing [.word (.command 2), .rst]).pending = .word (.command 2) :: [.rst] ∧ decode (.command 2) = .ok .integ) ∧
    (doing [.bus ⟨true, 0x7C, 4, 1, 7⟩]).pending = [.bus ⟨true, 0x7C, 4, 1, 7⟩] ∧
    decodeAccess State.reset.cfg ⟨true, 0x7C, 4, 1, 7⟩ = .ok (.wr 0x7C 7) := by decide

theorem witness_StepRejectsIllegalWord : (doing [.word (.command 6)]).pending = .word (.command 6) :: [] ∧
    decode (.command 6) = .error (.illegalCommand 6) := by decide

theorem witness_IdleBlockDoesNothing : State.reset.pending = [] := by decide

/-- The three clauses where they meet: the last byte before and the first byte after the window, a byte access, a burst and
an unaligned word inside it, an access across its end, its first and last word, and a burst that ends below the window and one
that runs into it (log 17). -/
theorem witness_BusAccessMeaning :
    let cfg := { Config.reference with regBase := 0x1000 }
    decodeAccess cfg ⟨false, 0xFFC, 4, 1, 0⟩ = .error .outsideWindow ∧
    decodeAccess cfg ⟨false, 0x1080, 4, 1, 0⟩ = .error .outsideWindow ∧
    decodeAccess cfg ⟨false, 0xFFD, 4, 1, 0⟩ = .error .windowAccessNoMeaning ∧
    decodeAccess cfg ⟨false, 0x1000, 1, 1, 0⟩ = .error .windowAccessNoMeaning ∧
    decodeAccess cfg ⟨false, 0x1000, 4, 2, 0⟩ = .error .windowAccessNoMeaning ∧
    decodeAccess cfg ⟨false, 0x1002, 4, 1, 0⟩ = .error .windowAccessNoMeaning ∧
    decodeAccess cfg ⟨false, 0x107E, 4, 1, 0⟩ = .error .windowAccessNoMeaning ∧
    decodeAccess cfg ⟨true, 0x1000, 4, 1, 5⟩ = .ok (.wr 0x00 5) ∧
    decodeAccess cfg ⟨false, 0x107C, 4, 1, 0⟩ = .ok (.rd 0x7C) ∧
    decodeAccess cfg ⟨false, 0xFF8, 4, 2, 0⟩ = .error .outsideWindow ∧
    decodeAccess cfg ⟨false, 0xFF8, 4, 3, 0⟩ = .error .windowAccessNoMeaning := by decide

/-! ### Witnesses: accesses to the window, one for each clause at its boundaries -/

theorem witness_WrEffectByOffset :
    (∀ off ∈ [0x00, 0x04, 0x08, 0x0C, 0x10, 0x14, 0x3C, 0x40, 0x7C], (BitVec.ofNat 8 off).toNat ≤ 0x7C ∧
      (BitVec.ofNat 8 off).toNat % 4 = 0) ∧
    (after (.wr 0x40 7) State.reset).map (·.x[0]) = some 7 ∧ (after (.wr 0x7C 7) State.reset).map (·.x[15]) = some 7 ∧
    after (.wr 0x00 7) State.reset = some State.reset ∧ after (.wr 0x0C 7) State.reset = some State.reset ∧
    after (.wr 0x10 7) State.reset = some State.reset ∧ after (.wr 0x14 7) State.reset = some State.reset ∧
    after (.wr 0x3C 7) State.reset = some State.reset := by decide +kernel

theorem witness_RdReturnsByOffset :
    let s := State.reset.setReg 0 3 |>.setReg 15 4
    readBack 0x00 s = some 0x53445031 ∧ readBack 0x04 s = some 0 ∧ readBack 0x08 s = some 0 ∧ readBack 0x0C s = some 0 ∧
    readBack 0x10 s = some 0 ∧ readBack 0x14 s = some 0 ∧ readBack 0x3C s = some 0 ∧ readBack 0x40 s = some 3 ∧
    readBack 0x7C s = some 4 := by decide +kernel

theorem witness_AccessOffTheWindowWords :
    ((0x01 : BitVec 8).toNat < 0x80 ∧ (0x01 : BitVec 8).toNat % 4 ≠ 0) ∧
    ((0x7F : BitVec 8).toNat < 0x80 ∧ (0x7F : BitVec 8).toNat % 4 ≠ 0) ∧
    0x80 ≤ (0x80 : BitVec 8).toNat ∧ 0x80 ≤ (0xFF : BitVec 8).toNat := by decide

/-! ### Witnesses: the issue of a command -/

theorem witness_NopOnlyUpdatesStatus : (0x00000100 : Word).extractLsb' 0 8 = 0 ∧
    (0x00000100 : Word).extractLsb' 8 24 ≠ 0 := by decide

/-- A completed and a rejected issue. -/
theorem witness_EveryIssueEnds : triple (.wr 0x04 0) State.reset = some (1, 0, 0) ∧
    triple (.wr 0x04 0x101) State.reset = some (2, 1, 0x101) := by decide +kernel

theorem witness_RejectedCommandChangesNothingElse :
    ∃ t, exec (.wr 0x04 1) (base [(1, 7)]) = .next t ∧ t.status.err = true := ⟨_, rfl, by decide +kernel⟩

theorem witness_CorrectedCommandRunsAsIfFirst :
    ∃ t, exec (.wr 0x04 6) State.reset = .next t ∧ t.status.err = true := ⟨_, rfl, by decide +kernel⟩

theorem witness_OperandRegistersChangeOnlyByWrOrReset :
    (∃ t, step (doing [.word (encode (.wr 0x40 7))]) = .next t ∧ t.x[0] ≠ State.reset.x[0]) ∧
    (∃ t, step ((base []).setPending [.rst]) = .next t ∧ t.x[0] ≠ (base []).x[0]) ∧
    ∃ t, step ((base []).setPending [.powerCycle]) = .next t ∧ t.x[0] ≠ (base []).x[0] :=
  ⟨⟨_, rfl, by decide +kernel⟩, ⟨_, rfl, by decide +kernel⟩, ⟨_, rfl, by decide +kernel⟩⟩

theorem witness_NoCommandReadsAFlag : isCommand .integ = true ∧ isCommand .adapt = true ∧ isCommand .range = true ∧
    ({ done := true, err := false, ovf := true } : Status).ovf = true ∧
    ({ done := true, err := false, ovf := false } : Status).ovf = State.reset.status.ovf := by decide

theorem witness_UnlistedRegistersAreIgnored : isCommand .deint = true ∧ (8 : Fin 16) ∉ registersRead .deint ∧
    (0 : Fin 16) ∉ registersRead .nop ∧ (12 : Fin 16) ∉ registersRead .adapt := by decide

/-! ### Witnesses: legal operands -/

theorem witness_legal_base : Legal (deintBuffers (base [])) (base []) ∧ Legal (integBuffers (base [])) (base []) ∧
    Legal (athrBuffers (base [])) (base []) ∧ Legal (adaptBuffers (base [])) (base []) ∧
    Legal (rangeBuffers (base [])) (base []) :=
  ⟨by decide +kernel, by decide +kernel, by decide +kernel, by decide +kernel, by decide +kernel⟩

theorem witness_DeintSplitsBytePairs : Legal (deintBuffers deintStart) deintStart ∧ 1 < deintStart.x[9].toNat ∧
    2 < deintStart.x[10].toNat := by decide +kernel

theorem witness_PlaneOrderIsDestinationSwap : Legal (deintBuffers deintStart) deintStart := by decide +kernel

theorem witness_DeintLoopOrderUnobservable : Legal (deintBuffers deintStart) deintStart := by decide +kernel

theorem witness_IntegWritesPrefixSums : Legal (integBuffers (base [])) (base []) ∧ 2 ≤ (base []).x[9].toNat ∧
    4 ≤ (base []).x[10].toNat := by decide +kernel

/-- Rectangles at the edges of the image, one of them of 15 by 15 pixels. -/
theorem witness_FourCornersGiveRectangleSum : Legal (integBuffers (adaptStart 94)) (adaptStart 94) ∧
    (1 ≤ 16 ∧ 16 ≤ (adaptStart 94).x[9].toNat ∧ 0 ≤ 15 ∧ 15 ≤ (adaptStart 94).x[10].toNat ∧ 16 = 1 + 15 ∧ 15 = 0 + 15) ∧
    pixelSum (adaptStart 94) 16 16 0 16 ≤ 2147483647 := ⟨by decide +kernel, by decide +kernel, by simp [pixelSum]⟩

/-- A 16 by 16 image has one interior pixel, `(7, 7)`; rows 6 and 8 are in the band. -/
theorem witness_AthrBinarizesInterior : Legal (athrBuffers (adaptStart 94)) (adaptStart 94) ∧
    inInterior 16 16 7 7 = true ∧ inInterior 16 16 6 7 = false ∧ inInterior 16 16 7 8 = false ∧
    7 < (adaptStart 94).x[9].toNat ∧ 7 < (adaptStart 94).x[10].toNat := by decide +kernel

/-- Each side of the band at its boundary. -/
theorem witness_BorderBandIsCopied :
    (Legal (athrBuffers (adaptStart 94)) (adaptStart 94) ∧ Legal (adaptBuffers (adaptStart 94)) (adaptStart 94)) ∧
    (6 ≤ 6 ∧ 6 < (adaptStart 94).x[9].toNat) ∧ ((adaptStart 94).x[9].toNat ≤ 8 + 8 ∧ 8 < (adaptStart 94).x[9].toNat) ∧
    (adaptStart 94).x[10].toNat ≤ 8 + 8 ∧ 8 < (adaptStart 94).x[10].toNat := by decide +kernel

theorem witness_AdaptIsIdealThreshold : Legal (adaptBuffers (adaptStart 94)) (adaptStart 94) ∧
    inInterior (adaptStart 94).rows (adaptStart 94).cols 7 7 = true := by decide +kernel

/-- Both commands complete, and `integ` completes where `athr` is rejected for its destination's stride. -/
theorem witness_AdaptEqualsIntegThenAthr :
    (Legal (integBuffers (base [])) (base []) ∧ Legal (athrBuffers (base [])) (base [])) ∧
    Legal (integBuffers (base [(5, 3)])) (base [(5, 3)]) ∧ ¬Legal (athrBuffers (base [(5, 3)])) (base [(5, 3)]) :=
  ⟨⟨by decide +kernel, by decide +kernel⟩, by decide +kernel, by decide +kernel⟩

/-- V-ATHR-1: a uniform image of 100s. -/
theorem witness_UniformImageBinarizesTo255 : Legal (adaptBuffers (adaptStart 100)) (adaptStart 100) ∧
    0 ≤ (adaptStart 100).x[11].toInt ∧ ∀ r < (adaptStart 100).x[9].toNat, ∀ c < (adaptStart 100).x[10].toNat,
      (adaptStart 100).byte ((adaptStart 100).x[0].toNat + r * (adaptStart 100).x[1].toNat + c) = 100 := by
  decide +kernel

theorem witness_AthrMonotoneInDelta : Legal (athrBuffers (adaptStart 94)) (adaptStart 94) ∧
    (adaptStart 94).x[11].toInt ≤ (6 : Word).toInt := by decide +kernel

theorem witness_RangeMasksIntervals :
    Legal (rangeBuffers (rangeStart 100 150 100 150)) (rangeStart 100 150 100 150) ∧
    1 < (rangeStart 100 150 100 150).x[9].toNat ∧ 3 < (rangeStart 100 150 100 150).x[10].toNat := by decide +kernel

/-- Reversed bounds of each channel: V-RANGE-2, V-RANGE-3. -/
theorem witness_ReversedBoundsGiveZeroMask :
    (Legal (rangeBuffers (rangeStart 150 100 100 150)) (rangeStart 150 100 100 150) ∧
      (rangeStart 150 100 100 150).x[12].toInt > (rangeStart 150 100 100 150).x[13].toInt) ∧
    Legal (rangeBuffers (rangeStart 100 150 150 100)) (rangeStart 100 150 150 100) ∧
      (rangeStart 100 150 150 100).x[14].toInt > (rangeStart 100 150 150 100).x[15].toInt := by decide +kernel

/-- V-RANGE-1 widened to V-RANGE-7. -/
theorem witness_RangeMonotoneInBounds :
    let s := rangeStart 100 150 100 150
    Legal (rangeBuffers s) s ∧ (99 : Word).toInt ≤ s.x[12].toInt ∧ s.x[13].toInt ≤ (151 : Word).toInt ∧
      (99 : Word).toInt ≤ s.x[14].toInt ∧ s.x[15].toInt ≤ (150 : Word).toInt := by decide +kernel

theorem witness_RangeSymmetricInChannels :
    Legal (rangeBuffers (rangeStart 100 150 100 150)) (rangeStart 100 150 100 150) := by decide +kernel

/-- A second memory that differs from the first in a byte of the mask. -/
theorem witness_RangeMaskIsBinary :
    let s := rangeStart 100 150 100 150
    let m := s.mem.writeRun 0x300 [0x12]
    Legal (rangeBuffers s) s ∧ m ≠ s.mem ∧
      ∀ k, (∀ r < s.x[9].toNat, ∀ c < s.x[10].toNat, k ≠ s.x[4].toNat + r * s.x[5].toNat + c) →
        { s with mem := m }.byte k = s.byte k := by
  refine ⟨by decide +kernel, by decide +kernel, fun k hk => ?_⟩
  have h0 : k ≠ 0x300 := hk 0 (by decide +kernel) 0 (by decide +kernel)
  unfold State.byte
  refine congrArg (fun o : Option Byte => o.getD _) (Memory.get?_writeRun_of_not_mem _ _ _ _ ?_)
  simp only [List.length_cons, List.length_nil]
  omega

/-- The byte before and the byte after the first row of `DST0` are none of a command's outputs. -/
theorem witness_CommandsWriteOnlyOutBuffers : isCommand .deint = true ∧
    ∀ k ∈ [0x2FF, 0x308], ∀ b ∈ buffersOf .deint (base []), b.dir = .output →
      ∀ r < b.nrows, ∀ j < b.rowbytes, k ≠ b.base + r * b.stride + j := by decide +kernel

/-! ### Witnesses: the overflow rule at its boundaries -/

/-- The total of an image whose rows follow one another from address 0 is the sum of its bytes. -/
theorem total_of_contiguous (s : State) (n : Nat) (hb : s.src0Base = 0) (hs : s.src0Stride = n) (r : Nat) :
    pixelSum s 0 r 0 n = ∑ k ∈ Finset.range (r * n), (s.byte k).toNat := by
  induction r with
  | zero => simp [pixelSum]
  | succ r ih =>
    rw [pixelSum_rows s r (r + 1) 0 n (by omega), ih, Nat.succ_mul, Finset.sum_range_add]
    simp [pixelSum, State.srcByte, hb, hs]

/-- An image in the largest memory: 8421504 bytes `FF`, then `b`, then zeros. 8421504 pixels are the most that cannot set
`OVF` (41_integ.md R146). -/
def bigStart (nrows ncols : Word) (b : Byte) : State :=
  { mk [(0, 0), (1, ncols), (8, 0x1000000), (9, nrows), (10, ncols)]
      (Memory.cells 0 (List.replicate 8421504 0xFF ++ ([b] ++ List.replicate 99 0))) with
    cfg := { Config.reference with memSize := 2 ^ 32 } }

theorem bigStart_byte (nrows ncols : Word) (b : Byte) (k : Nat) (hk : k < 8421604) :
    (bigStart nrows ncols b).byte k = if k < 8421504 then 0xFF else if k = 8421504 then b else 0 := by
  have hg : (bigStart nrows ncols b).mem.get? k = some (if k < 8421504 then 0xFF else if k = 8421504 then b else 0) := by
    refine (Memory.get?_cells 0 _ _).trans ?_
    rw [if_pos (Nat.zero_le _), Nat.sub_zero, List.getElem?_append, List.length_replicate]
    by_cases h1 : k < 8421504
    · rw [if_pos h1, if_pos h1, List.getElem?_replicate, if_pos h1]
    · rw [if_neg h1, if_neg h1, List.getElem?_append, List.length_singleton]
      by_cases h2 : k = 8421504
      · subst h2
        rfl
      · rw [if_neg (by omega), if_neg h2, List.getElem?_replicate, if_pos (by omega)]
  change ((bigStart nrows ncols b).mem.get? k).getD _ = _
  rw [hg]
  rfl

theorem bigStart_sum (nrows ncols : Word) (b : Byte) (n : Nat) (hn : n ≤ 99) :
    ∑ k ∈ Finset.range (8421504 + (1 + n)), ((bigStart nrows ncols b).byte k).toNat = 2147483520 + b.toNat := by
  have h1 : ∀ k ∈ Finset.range 8421504, ((bigStart nrows ncols b).byte k).toNat = 255 := by
    intro k hk
    have hk := Finset.mem_range.1 hk
    rw [bigStart_byte _ _ _ _ (by omega), if_pos hk]
    rfl
  have h2 : ∀ k ∈ Finset.range n, ((bigStart nrows ncols b).byte (8421504 + (1 + k))).toNat = 0 := by
    intro k hk
    have hk := Finset.mem_range.1 hk
    rw [bigStart_byte _ _ _ _ (by omega), if_neg (by omega), if_neg (by omega)]
    rfl
  rw [Finset.sum_range_add, Finset.sum_range_add, Finset.sum_congr rfl h1, Finset.sum_congr rfl h2, Finset.sum_range_one,
    bigStart_byte _ _ _ _ (by omega), if_neg (by omega), if_pos rfl]
  simp

/-- The total of the 2902 by 2902 image. -/
theorem bigStart_total (b : Byte) : pixelSum (bigStart 2902 2902 b) 0 2902 0 2902 = 2147483520 + b.toNat := by
  rw [total_of_contiguous _ 2902 rfl rfl]
  exact bigStart_sum 2902 2902 b 99 (by omega)

theorem bigStart_legal (nrows ncols : Word) (b : Byte)
    (h : Legal (integBuffers { bigStart nrows ncols 0 with mem := [] }) { bigStart nrows ncols 0 with mem := [] }) :
    Legal (integBuffers (bigStart nrows ncols b)) (bigStart nrows ncols b) := h

/-- Each clause of the overflow rule at its boundary: a total of 2147483648, a total of 2147483647, and an image of exactly
8421504 pixels. -/
theorem witness_OverflowOnlyBeyondTotal :
    (Legal (integBuffers (bigStart 2902 2902 128)) (bigStart 2902 2902 128) ∧
      pixelSum (bigStart 2902 2902 128) 0 (bigStart 2902 2902 128).x[9].toNat 0 (bigStart 2902 2902 128).x[10].toNat =
        2147483648) ∧
    (Legal (integBuffers (bigStart 2902 2902 127)) (bigStart 2902 2902 127) ∧
      pixelSum (bigStart 2902 2902 127) 0 (bigStart 2902 2902 127).x[9].toNat 0 (bigStart 2902 2902 127).x[10].toNat =
        2147483647) ∧
    Legal (integBuffers (bigStart 2892 2912 0)) (bigStart 2892 2912 0) ∧
      (bigStart 2892 2912 0).x[9].toNat * (bigStart 2892 2912 0).x[10].toNat = 8421504 :=
  ⟨⟨bigStart_legal _ _ _ (by decide +kernel), bigStart_total 128⟩,
    ⟨bigStart_legal _ _ _ (by decide +kernel), bigStart_total 127⟩, bigStart_legal _ _ _ (by decide +kernel), rfl⟩

theorem ovf_of_total (s : State) (h : Legal (integBuffers s) s) (ht : 2147483647 < pixelSum s 0 s.rows 0 s.cols) :
    (integCommand s).status.ovf = true := by
  rw [integCommand_of_legal s h, imageTotal_eq, completed_status]
  simp [ht]

theorem bigStart_sets_ovf : (integCommand (bigStart 2902 2902 128)).status.ovf = true :=
  ovf_of_total _ witness_OverflowOnlyBeyondTotal.1.1 (Nat.lt_of_lt_of_eq (by decide) (bigStart_total 128).symm)

/-- `OVF` set by `INTEG`, and cleared by a write of 4 to `STATUS`. -/
theorem witness_OverflowFlagIsSticky :
    (∃ t, exec .integ (bigStart 2902 2902 128) = .next t ∧ (bigStart 2902 2902 128).status.ovf = false ∧
      t.status.ovf = true) ∧
    ∃ t, exec (.wr 0x08 4) (State.reset.setStatus ⟨true, false, true⟩) = .next t ∧ t.status.ovf = false :=
  ⟨⟨integCommand (bigStart 2902 2902 128), rfl, rfl, bigStart_sets_ovf⟩, ⟨_, rfl, by decide⟩⟩

/-- Each cause of the step statement: a write to `STATUS`, `rst`, loss of power, and `INTEG`. -/
theorem witness_OverflowFlagChangesInAStep :
    (∀ h ∈ [HostStep.word (encode (.wr 0x08 4)), .rst, .powerCycle], ∃ t,
      step ((State.reset.setStatus ⟨true, false, true⟩).setPending [h]) = .next t ∧ t.status.ovf = false) ∧
    ∃ t, step ((bigStart 2902 2902 128).setPending [.word (.command 2)]) = .next t ∧ t.status.ovf = true := by
  refine ⟨fun h hh => ?_, integCommand ((bigStart 2902 2902 128).setPending []), rfl, bigStart_sets_ovf⟩
  simp only [List.mem_cons, List.not_mem_nil, or_false] at hh
  rcases hh with rfl | rfl | rfl
  · exact ⟨_, rfl, by decide +kernel⟩
  · exact ⟨_, rfl, rfl⟩
  · exact ⟨_, rfl, rfl⟩

/-! ### Witnesses: memory, reset, the whole machine -/

/-- The last word of memory. -/
theorem witness_WordsAreLittleEndian :
    (doing [.memWrite 0xFFFC .word 1, .memRead 0xFFFC .word]).pending =
      .memWrite 0xFFFC .word 1 :: .memRead 0xFFFC .word :: [] ∧
    (0xFFFC : Word).toNat + 4 ≤ State.reset.cfg.memSize := by decide

/-- The first absent byte, a word of which only the last byte is absent, and the top of the address space. -/
theorem witness_AbsentAddressFaults :
    (State.reset.cfg.memSize < (0x10000 : Word).toNat + Width.byte.bytes ∧
      (doing [.memRead 0x10000 .byte]).pending = [.memRead 0x10000 .byte]) ∧
    (State.reset.cfg.memSize < (0xFFFD : Word).toNat + Width.word.bytes ∧
      (doing [.memWrite 0xFFFD .word 5]).pending = [.memWrite 0xFFFD .word 5]) ∧
    State.reset.cfg.memSize < (0xFFFFFFFF : Word).toNat + Width.word.bytes := by decide

/-- The last byte of memory, and a word at the last address that holds one and at an unaligned one. -/
theorem witness_HostReadsAndWritesDataMemory :
    ((doing [.memWrite 0xFFFF .byte 0x1FF]).pending = [.memWrite 0xFFFF .byte 0x1FF] ∧
      (doing [.memRead 0xFFFF .byte]).pending = [.memRead 0xFFFF .byte] ∧
      (0xFFFF : Word).toNat < State.reset.cfg.memSize) ∧
    (doing [.memRead 0xFFFC .word]).pending = [.memRead 0xFFFC .word] ∧
    (0xFFFC : Word).toNat + 4 ≤ State.reset.cfg.memSize ∧ (0xFFFB : Word).toNat + 4 ≤ State.reset.cfg.memSize := by decide

/-- A host byte read of the low byte of an entry that holds 45 reads `2D` (20_memory.md R64). -/
theorem test_host_byte_of_entry : ((match step ((State.reset.writeBytes 0x400 (leBytes 45)).setPending
    [.memRead 0x400 .byte]) with
    | .next t => t.readData
    | .fault _ => none
    | .refused _ => none)) = some 0x2D := by decide +kernel

theorem witness_RstResetsRegistersKeepsMemory : (deintStart.setPending [.rst]).pending = .rst :: [] := by decide

theorem witness_PowerCycleResetsEverything : (deintStart.setPending [.powerCycle]).pending = .powerCycle :: [] := by
  decide

/-- Both clauses: `MEM_SIZE = 4`, which holds the one table entry, and `MEM_SIZE = 3`. -/
theorem witness_CommandsStraightAfterReset : 4 ≤ ({ Config.reference with memSize := 4 } : Config).memSize ∧
    ({ Config.reference with memSize := 3 } : Config).memSize < 4 := by decide

theorem witness_StepKeepsInvariant : Invariant (doing [.memWrite 5 .byte 7]) ∧
    ∃ t, step (doing [.memWrite 5 .byte 7]) = .next t ∧ t.mem = [(5, 7)] := by
  refine ⟨?_, _, rfl, by decide⟩
  unfold Invariant
  decide

/-- A fault and a refusal. -/
theorem witness_MachineStopsOnlyOnHostAccess :
    step (doing [.memRead 0xFFFD .word]) = .fault .hostAddressAbsent ∧
    step (doing [.bus ⟨false, 2, 4, 1, 0⟩]) = .refused .windowAccessNoMeaning := ⟨rfl, rfl⟩

theorem witness_StepConsumesOneHostStep : ∃ t, step (doing [.rst, .rst]) = .next t := ⟨_, rfl⟩

theorem witness_HostSurfaceIsExpandedNearest :
    expandSurface 3 (rescale 1 1 fun _ _ => 9) =
      [9, 9, 9, 255, 9, 9, 9, 255, 9, 9, 9, 255, 9, 9, 9, 255] ∧ 1 < 2 * 1 ∧ 3 < 4 := by decide

end Sys2Proof.Tests
end

section
/-! The state family: what every command does, said by one equation, and from it the invariant, the operand registers and
the overflow flag over instructions and steps (10_state.md). -/

namespace Sys2Proof.Machine

/-! ### One equation for every command -/

/-- The operand tests of a command, step 2 of 60_exceptions.md R250; `NOP` has none (44_system.md R210). -/
def operandTests (i : Instr) (s : State) : Option Rejection :=
  match i with
  | .nop => none
  | _ => validateWith (buffersOf i) s

/-- The memory that a command leaves when it completes. -/
def memoryAfter (i : Instr) (s : State) : Memory :=
  match i with
  | .deint => (deintBody s).mem
  | .integ => integWrites s
  | .athr => (athrBody s).mem
  | .adapt => (athrBody (s.setMem (integWrites s))).mem
  | .range => (rangeBody s).mem
  | .nop | .wr _ _ | .rd _ => s.mem

/-- The overflow flag that a command leaves when it completes (10_state.md R38, 41_integ.md R146). -/
def overflowAfter (i : Instr) (s : State) : Bool :=
  match i with
  | .integ | .adapt => s.status.ovf || decide (2 ^ 31 - 1 < imageTotal s)
  | _ => s.status.ovf

/-- The command word of an instruction (30_encoding.md R92). -/
def commandWord (i : Instr) : Word :=
  match encode i with
  | .command w => w
  | .transaction _ => 0

/-- The state in which the issue of command `i` ends (60_exceptions.md R250, R251). -/
def commandEnd (i : Instr) (s : State) : State :=
  match operandTests i s with
  | some r => s.rejected (commandWord i) r.error r.info
  | none => s.completed (commandWord i) (memoryAfter i s) (overflowAfter i s)

theorem commandEnd_of_rejection {i : Instr} {s : State} {r : Rejection} (h : operandTests i s = some r) :
    commandEnd i s = s.rejected (commandWord i) r.error r.info := by
  rw [commandEnd, h]

theorem commandEnd_of_pass {i : Instr} {s : State} (h : operandTests i s = none) :
    commandEnd i s = s.completed (commandWord i) (memoryAfter i s) (overflowAfter i s) := by
  rw [commandEnd, h]

/-- `commandEnd` is what `exec` answers for each of the six commands. -/
theorem exec_command (i : Instr) (s : State) (hc : isCommand i = true) : exec i s = .next (commandEnd i s) := by
  cases i with
  | nop => rfl
  | deint => exact congrArg Host.Outcome.next (deintCommand_eq s)
  | integ => exact congrArg Host.Outcome.next (integCommand_eq s)
  | athr => exact congrArg Host.Outcome.next (athrCommand_eq s)
  | adapt => exact congrArg Host.Outcome.next (adaptCommand_eq s)
  | range => exact congrArg Host.Outcome.next (rangeCommand_eq s)
  | wr off val => cases hc
  | rd off => cases hc

theorem isCommand_instr (op : Opcode) : isCommand op.instr = true := by cases op <;> rfl

/-- A legal word written to `CMD` issues the command it encodes (30_encoding.md R92, R97). -/
theorem issueWord_of_opcodeOf {w : Word} {op : Opcode} (h : opcodeOf w = some op) (s : State) :
    issueWord w s = commandEnd op.instr s := by
  have hx : exec op.instr s = .next (issueWord w s) := by
    unfold issueWord
    rw [h]
    cases op <;> rfl
  exact (Host.Outcome.next.inj ((exec_command _ s (isCommand_instr op)).symm.trans hx)).symm

/-- An illegal word written to `CMD` is rejected (30_encoding.md R93). -/
theorem issueWord_of_illegal {w : Word} (h : opcodeOf w = none) (s : State) :
    issueWord w s = s.rejected w .opcode w := by
  unfold issueWord
  rw [h]
  rfl

/-! ### The overflow flag over one command -/

theorem overflowAfter_of_ne {i : Instr} (hi : i ≠ .integ) (ha : i ≠ .adapt) (s : State) :
    overflowAfter i s = s.status.ovf := by
  unfold overflowAfter
  split
  · exact absurd rfl hi
  · exact absurd rfl ha
  · rfl

/-- A command that completes never clears `OVF` (10_state.md R38). -/
theorem overflowAfter_of_ovf (i : Instr) {s : State} (h : s.status.ovf = true) : overflowAfter i s = true := by
  unfold overflowAfter
  split <;> simp [h]

theorem commandEnd_ovf_of_ovf (i : Instr) {s : State} (h : s.status.ovf = true) :
    (commandEnd i s).status.ovf = true := by
  cases hv : operandTests i s with
  | some r => simp [commandEnd_of_rejection hv, h]
  | none => simp [commandEnd_of_pass hv, overflowAfter_of_ovf i h]

theorem commandEnd_ovf_of_ne {i : Instr} (hi : i ≠ .integ) (ha : i ≠ .adapt) (s : State) :
    (commandEnd i s).status.ovf = s.status.ovf := by
  cases hv : operandTests i s with
  | some r => simp [commandEnd_of_rejection hv]
  | none => simp [commandEnd_of_pass hv, overflowAfter_of_ne hi ha]

/-! ### No command reads a flag -/

theorem operandTests_setStatus (i : Instr) (s : State) (f : Status) :
    operandTests i (s.setStatus f) = operandTests i s := by
  cases i <;> rfl

theorem memoryAfter_setStatus (i : Instr) (s : State) (f : Status) :
    memoryAfter i (s.setStatus f) = memoryAfter i s := by
  cases i <;> rfl

theorem overflowAfter_setStatus (i : Instr) (s : State) (f : Status) (h : f.ovf = s.status.ovf) :
    overflowAfter i (s.setStatus f) = overflowAfter i s := by
  cases i with
  | integ | adapt => exact congrArg (· || decide (2 ^ 31 - 1 < imageTotal s)) h
  | _ => exact h

/-- Under other flags a command ends in the same state but for `OVF` (10_state.md R38). -/
theorem commandEnd_setStatus (i : Instr) (s : State) (f : Status) :
    commandEnd i (s.setStatus f) = (commandEnd i s).setStatus
      { (commandEnd i s).status with ovf := (commandEnd i (s.setStatus f)).status.ovf } := by
  have hv' := operandTests_setStatus i s f
  cases hv : operandTests i s with
  | some r =>
    rw [commandEnd_of_rejection hv, commandEnd_of_rejection (hv'.trans hv)]
    rfl
  | none =>
    rw [commandEnd_of_pass hv, commandEnd_of_pass (hv'.trans hv), memoryAfter_setStatus]
    rfl

/-- Under flags with the same `OVF` a command ends with the same `OVF` (10_state.md R38). -/
theorem commandEnd_setStatus_ovf (i : Instr) (s : State) (f : Status) (h : f.ovf = s.status.ovf) :
    (commandEnd i (s.setStatus f)).status.ovf = (commandEnd i s).status.ovf := by
  have hv' := operandTests_setStatus i s f
  cases hv : operandTests i s with
  | some r =>
    rw [commandEnd_of_rejection hv, commandEnd_of_rejection (hv'.trans hv)]
    exact h
  | none =>
    rw [commandEnd_of_pass hv, commandEnd_of_pass (hv'.trans hv)]
    exact overflowAfter_setStatus i s f h

theorem commandEnd_done (i : Instr) (s : State) : (commandEnd i s).status.done = !(commandEnd i s).status.err := by
  cases hv : operandTests i s with
  | some r => rw [commandEnd_of_rejection hv]; rfl
  | none => rw [commandEnd_of_pass hv]; rfl

/-- Settles O19: both runs end in `commandEnd`, which reads of the status only `OVF`, and that only into `OVF`. -/
theorem noCommandReadsAFlag : Obligations.NoCommandReadsAFlag := by
  intro s f i hc
  exact ⟨commandEnd i s, commandEnd i (s.setStatus f), exec_command i s hc, exec_command i (s.setStatus f) hc,
    commandEnd_setStatus i s f, commandEnd_done i s, fun h => commandEnd_ovf_of_ovf i h,
    commandEnd_setStatus_ovf i s f, fun hi ha => commandEnd_ovf_of_ne hi ha _⟩

/-! ### The invariant over commands -/

/-- A command whose operand tests pass has legal operands; `NOP` has no operands. -/
theorem legal_of_operandTests {i : Instr} {s : State} (hi : i ≠ .nop) (h : operandTests i s = none) :
    Legal (buffersOf i s) s := by
  rw [← validateWith_eq_none_iff]
  cases i with
  | nop => exact absurd rfl hi
  | _ => exact h

/-- What a completed command writes keeps memory canonical. -/
theorem memoryAfter_wf (i : Instr) (s : State) (h : s.mem.wf = true) : (memoryAfter i s).wf = true := by
  cases i with
  | deint => exact deintBody_wf s h
  | integ => exact integWrites_wf s h
  | athr => exact athrBody_wf s h
  | adapt => exact athrBody_wf (s.setMem (integWrites s)) (integWrites_wf s h)
  | range => exact rangeBody_wf s h
  | nop | wr _ _ | rd _ => exact h

/-- What a completed command writes lies in memory (20_memory.md R70). -/
theorem memoryAfter_lt (i : Instr) (s : State) (hv : operandTests i s = none) (h : ∀ c ∈ s.mem, c.1 < s.cfg.memSize) :
    ∀ c ∈ memoryAfter i s, c.1 < s.cfg.memSize := by
  cases i with
  | deint => exact deintBody_lt s (legal_of_operandTests (by decide) hv) h
  | integ =>
    have hl : Legal (integBuffers s) s := legal_of_operandTests (i := .integ) (by decide) hv
    exact integWrites_lt s (legal_tab_bound _ s .output hl (by simp [integBuffers])) h
  | athr =>
    have hl : Legal (athrBuffers s) s := legal_of_operandTests (i := .athr) (by decide) hv
    exact athrBody_lt s (legal_bound _ s hl (s.dst0 s.cols) (by simp [athrBuffers])) h
  | adapt =>
    have hl : Legal (adaptBuffers s) s := legal_of_operandTests (i := .adapt) (by decide) hv
    have htab := integWrites_lt s (legal_tab_bound _ s .output hl (by simp [adaptBuffers])) h
    exact athrBody_lt (s.setMem (integWrites s)) (legal_bound _ s hl (s.dst0 s.cols) (by simp [adaptBuffers])) htab
  | range => exact rangeBody_lt s (legal_of_operandTests (by decide) hv) h
  | nop | wr _ _ | rd _ => exact h

theorem invariant_commandEnd (i : Instr) (s : State) (h : Invariant s) : Invariant (commandEnd i s) := by
  cases hv : operandTests i s with
  | some r =>
    rw [commandEnd_of_rejection hv]
    exact invariant_rejected s _ _ _ h
  | none =>
    obtain ⟨-, hwf, hlt, -⟩ := id h
    rw [commandEnd_of_pass hv]
    exact invariant_completed s _ _ _ h (memoryAfter_wf i s hwf) (memoryAfter_lt i s hv hlt)

theorem invariant_issueWord (w : Word) (s : State) (h : Invariant s) : Invariant (issueWord w s) := by
  cases hw : opcodeOf w with
  | none =>
    rw [issueWord_of_illegal hw]
    exact invariant_rejected s _ _ _ h
  | some op =>
    rw [issueWord_of_opcodeOf hw]
    exact invariant_commandEnd _ s h

/-! ### The invariant over instructions and steps -/

theorem invariant_writeWindow (r : WindowReg) (val : Word) (s : State) (h : Invariant s) :
    Invariant (writeWindow r val s) := by
  cases r with
  | cmd => exact invariant_issueWord val s h
  | status => exact invariant_clearedBy s val h
  | id | ecause | eval | reserved | operand _ => exact h

theorem invariant_exec (i : Instr) (s t : State) (h : Invariant s) (hx : exec i s = .next t) : Invariant t := by
  rcases exec_next_cases i s t hx with ⟨w, -, rfl⟩ | ⟨off, val, -, rfl | ⟨-, rfl⟩⟩ | ⟨off, -, rfl | rfl⟩
  · exact invariant_issueWord w s h
  · exact h
  · exact invariant_writeWindow _ val s h
  · exact h
  · exact h

/-- `rst` leaves memory and gives status registers that report nothing (70_reset_and_hazards.md R290). -/
theorem invariant_applyRst (s : State) (h : Invariant s) : Invariant s.applyRst := by
  obtain ⟨hcfg, hwf, hlt, -⟩ := h
  exact ⟨hcfg, hwf, hlt, by simp, by simp, by simp, by simp⟩

theorem invariant_applyPowerCycle (s : State) (h : Invariant s) : Invariant s.applyPowerCycle := by
  obtain ⟨hcfg, -⟩ := h
  exact ⟨hcfg, Memory.wf_nil, by simp, by simp, by simp, by simp, by simp⟩

/-- Settles O51, by what a step can do (`step_next_cases`): commands by `invariant_commandEnd`, the host's own steps one by
one. -/
theorem stepKeepsInvariant : Obligations.StepKeepsInvariant := by
  intro s t h hstep
  rcases step_next_cases s t hstep with ⟨-, rfl⟩ | ⟨hd, rest, -, hcase⟩
  · exact h
  · have h' : Invariant (s.setPending rest) := h
    rcases hcase with ⟨i, -, hx⟩ | ⟨w, rfl⟩ | rfl | ⟨w, rfl⟩ | ⟨a, bs, hb, rfl⟩ | ⟨-, rfl⟩ | ⟨-, rfl⟩
    · exact invariant_exec i _ t h' hx
    · rw [rejectWord_eq]
      exact invariant_rejected _ w .opcode w h'
    · exact h'
    · exact h'
    · exact invariant_writeBytes _ _ bs hb h'
    · exact invariant_applyRst _ h'
    · exact invariant_applyPowerCycle _ h'

/-! ### Reset -/

/-- Settles O47. -/
theorem resetStateValues : Obligations.ResetStateValues := by
  unfold Obligations.ResetStateValues
  decide

/-- Settles O52: memory is empty and no status register reports anything. -/
theorem resetMeetsInvariant : Obligations.ResetMeetsInvariant :=
  ⟨by decide, Memory.wf_nil, by simp [State.reset], by decide, by decide, by decide, by decide⟩

/-! ### The operand registers -/

theorem exec_x_cases (i : Instr) (s t : State) (hx : exec i s = .next t) (k : Fin 16) (hk : t.x[k] ≠ s.x[k]) :
    ∃ off val, i = .wr off val ∧ off.toNat = 0x40 + 4 * k.val ∧ t.x[k] = val := by
  rcases exec_next_cases i s t hx with ⟨w, -, rfl⟩ | ⟨off, val, rfl, rfl | ⟨hoff, rfl⟩⟩ | ⟨off, -, rfl | rfl⟩
  · exact absurd (by rw [issueWord_x]) hk
  · exact absurd rfl hk
  · obtain ⟨hr, hval⟩ := writeWindow_x_cases _ val s k hk
    exact ⟨off, val, rfl, toNat_of_windowReg_operand off k hoff hr, hval⟩
  · exact absurd rfl hk
  · exact absurd rfl hk

/-- Settles O17, by what a step can do: only a `WR` among the instructions, `rst` and loss of power write `x`. -/
theorem operandRegistersChangeOnlyByWrOrReset : Obligations.OperandRegistersChangeOnlyByWrOrReset := by
  intro s t hstep k hk
  rcases step_next_cases s t hstep with ⟨-, rfl⟩ | ⟨hd, rest, hp, hcase⟩
  · exact absurd rfl hk
  · refine ⟨hd, rest, hp, ?_⟩
    rcases hcase with ⟨i, hdec, hx⟩ | ⟨w, rfl⟩ | rfl | ⟨w, rfl⟩ | ⟨a, bs, -, rfl⟩ | ⟨rfl, -⟩ | ⟨rfl, -⟩
    · obtain ⟨off, val, rfl, hoff, hval⟩ := exec_x_cases i _ t hx k hk
      exact .inr (.inr ⟨off, val, hdec, hoff, hval⟩)
    · exact absurd rfl hk
    · exact absurd rfl hk
    · exact absurd rfl hk
    · exact absurd rfl hk
    · exact .inl rfl
    · exact .inr (.inl rfl)

/-! ### The overflow flag over instructions and steps -/

/-- The instructions that can set `OVF`: `INTEG` and `ADAPT`, as a statement or as a write to `CMD` (10_state.md R38). -/
def MaySetOverflow (i : Instr) : Prop :=
  i = .integ ∨ i = .adapt ∨ i = .wr 0x04 0x00000002 ∨ i = .wr 0x04 0x00000004

/-- A write of 1 to the `OVF` bit of `STATUS` (10_state.md R33). -/
def ClearsOverflow (i : Instr) : Prop := ∃ val : Word, i = .wr 0x08 val ∧ val.getLsbD 2 = true

theorem commandEnd_ovf_cases (i : Instr) (s : State) : (commandEnd i s).status.ovf = s.status.ovf ∨
    (commandEnd i s).status.ovf = true ∧ (i = .integ ∨ i = .adapt) := by
  by_cases hi : i = .integ ∨ i = .adapt
  · cases ho : s.status.ovf with
    | true => exact .inl (commandEnd_ovf_of_ovf i ho)
    | false => cases hs : (commandEnd i s).status.ovf <;> simp [hi]
  · obtain ⟨hi, ha⟩ := not_or.1 hi
    exact .inl (commandEnd_ovf_of_ne hi ha s)

theorem issueWord_ovf_cases (w : Word) (s : State) : (issueWord w s).status.ovf = s.status.ovf ∨
    (issueWord w s).status.ovf = true ∧ (w = 0x00000002 ∨ w = 0x00000004) := by
  cases hw : opcodeOf w with
  | none => exact .inl (by rw [issueWord_of_illegal hw, rejected_status])
  | some op =>
    have henc := encode_of_opcodeOf w op hw
    rw [issueWord_of_opcodeOf hw]
    refine (commandEnd_ovf_cases op.instr s).imp_right fun ⟨hset, hop⟩ => ⟨hset, ?_⟩
    rcases hop with hop | hop <;> rw [hop] at henc <;> cases henc
    · exact .inl rfl
    · exact .inr rfl

theorem writeWindow_ovf_cases (r : WindowReg) (val : Word) (s : State) :
    (writeWindow r val s).status.ovf = s.status.ovf ∨
      (writeWindow r val s).status.ovf = true ∧ r = .cmd ∧ (val = 0x00000002 ∨ val = 0x00000004) ∨
      (writeWindow r val s).status.ovf = false ∧ r = .status ∧ val.getLsbD 2 = true := by
  cases r with
  | cmd => exact (issueWord_ovf_cases val s).imp_right fun ⟨hset, hw⟩ => .inl ⟨hset, rfl, hw⟩
  | status =>
    cases hbit : val.getLsbD 2 with
    | true => exact .inr (.inr ⟨by simp only [writeWindow, State.setStatus_status, Status.clearedBy_ovf, hbit,
        Bool.not_true, Bool.and_false], rfl, rfl⟩)
    | false => exact .inl (by simp only [writeWindow, State.setStatus_status, Status.clearedBy_ovf, hbit,
        Bool.not_false, Bool.and_true])
  | id | ecause | eval | reserved | operand _ => exact .inl rfl

theorem eq_of_windowReg_cmd (off : BitVec 8) (hwf : offsetWf off = true) (h : windowReg off = .cmd) : off = 0x04 := by
  revert off
  decide

theorem eq_of_windowReg_status (off : BitVec 8) (hwf : offsetWf off = true) (h : windowReg off = .status) :
    off = 0x08 := by
  revert off
  decide

theorem execWr_next_cases (off : BitVec 8) (val : Word) (s t : State) (h : execWr off val s = .next t) :
    t = s ∨ offsetWf off = true ∧ t = writeWindow (windowReg off) val s := by
  unfold execWr at h
  split at h
  · cases h
    exact .inl rfl
  · split at h
    · cases h
      exact .inr ⟨by simp_all [offsetWf], rfl⟩
    · cases h

theorem execRd_status (off : BitVec 8) (s t : State) (h : execRd off s = .next t) : t.status = s.status := by
  unfold execRd at h
  split at h
  · cases h
    rfl
  · split at h <;> cases h
    rfl

/-- What an instruction does to `OVF`: it leaves it, or it sets it, or it clears it by the one write that can. -/
theorem exec_ovf_cases (i : Instr) (s t : State) (hx : exec i s = .next t) : t.status.ovf = s.status.ovf ∨
    t.status.ovf = true ∧ MaySetOverflow i ∨ t.status.ovf = false ∧ ClearsOverflow i := by
  cases i with
  | wr off val =>
    rcases execWr_next_cases off val s t hx with rfl | ⟨hoff, rfl⟩
    · exact .inl rfl
    · rcases writeWindow_ovf_cases (windowReg off) val s with h | ⟨hset, hr, hval⟩ | ⟨hclear, hr, hbit⟩
      · exact .inl h
      · obtain rfl := eq_of_windowReg_cmd off hoff hr
        exact .inr (.inl ⟨hset, .inr (.inr (hval.imp (congrArg _) (congrArg _)))⟩)
      · obtain rfl := eq_of_windowReg_status off hoff hr
        exact .inr (.inr ⟨hclear, val, rfl, hbit⟩)
  | rd off => exact .inl (by rw [execRd_status off s t hx])
  | nop | deint | integ | athr | adapt | range =>
    obtain rfl := Host.Outcome.next.inj ((exec_command _ s rfl).symm.trans hx)
    exact (commandEnd_ovf_cases _ s).imp_right fun ⟨hset, hi⟩ => .inl ⟨hset, hi.imp_right .inl⟩

/-- Settles O18: `exec_ovf_cases` read in both directions. -/
theorem overflowFlagIsSticky : Obligations.OverflowFlagIsSticky := by
  intro s t i hx
  rcases exec_ovf_cases i s t hx with heq | ⟨hset, hi⟩ | ⟨hclear, hi⟩
  · simp +contextual [heq]
  · exact ⟨by simp [hset], fun _ _ => hi⟩
  · exact ⟨fun _ _ => hi, by simp [hclear]⟩

/-- What a step does to `OVF`: it leaves it, or an instruction sets it, or an instruction, `rst` or loss of power clears
it. -/
theorem step_ovf_cases (s t : State) (hstep : step s = .next t) : t.status.ovf = s.status.ovf ∨
    ∃ hd rest, s.pending = hd :: rest ∧
      ((t.status.ovf = true ∧ ∃ i, hd.decoded s.cfg = some (.ok i) ∧ MaySetOverflow i) ∨
        t.status.ovf = false ∧
          (hd = .rst ∨ hd = .powerCycle ∨ ∃ i, hd.decoded s.cfg = some (.ok i) ∧ ClearsOverflow i)) := by
  rcases step_next_cases s t hstep with ⟨-, rfl⟩ | ⟨hd, rest, hp, hcase⟩
  · exact .inl rfl
  · rcases hcase with ⟨i, hdec, hx⟩ | ⟨w, rfl⟩ | rfl | ⟨w, rfl⟩ | ⟨a, bs, -, rfl⟩ | ⟨hd_rst, rfl⟩ | ⟨hd_power, rfl⟩
    · rcases exec_ovf_cases i _ t hx with heq | ⟨hset, hi⟩ | ⟨hclear, hi⟩
      · exact .inl heq
      · exact .inr ⟨hd, rest, hp, .inl ⟨hset, i, hdec, hi⟩⟩
      · exact .inr ⟨hd, rest, hp, .inr ⟨hclear, .inr (.inr ⟨i, hdec, hi⟩)⟩⟩
    · exact .inl rfl
    · exact .inl rfl
    · exact .inl rfl
    · exact .inl rfl
    · exact .inr ⟨hd, rest, hp, .inr ⟨rfl, .inl hd_rst⟩⟩
    · exact .inr ⟨hd, rest, hp, .inr ⟨rfl, .inr (.inl hd_power)⟩⟩

/-- Settles O56: `step_ovf_cases` read in both directions. -/
theorem overflowFlagChangesInAStep : Obligations.OverflowFlagChangesInAStep := by
  intro s t hstep
  rcases step_ovf_cases s t hstep with heq | ⟨hd, rest, hp, ⟨hset, i, hdec, hi⟩ | ⟨hclear, hcause⟩⟩
  · simp +contextual [heq]
  · exact ⟨by simp [hset], fun _ _ => ⟨hd, rest, i, hp, hdec, hi⟩⟩
  · refine ⟨fun _ _ => ⟨hd, rest, hp, hcause.imp_right (Or.imp_right ?_)⟩, by simp [hclear]⟩
    rintro ⟨_, hdec, val, rfl, hbit⟩
    exact ⟨val, hdec, hbit⟩

end Sys2Proof.Machine
end

section
/-! The memory family: a command writes only its output buffers, the host's accesses to data memory, and what every step
does to the host's list (20_memory.md). -/

namespace Sys2Proof.Machine

/-! ### The bytes a command leaves -/

/-- Address `k` is no used byte of an output buffer (20_memory.md R66, R72). -/
def OutsideOutputs (bufs : List Buffer) (k : Nat) : Prop :=
  ∀ b ∈ bufs, b.dir = .output → ∀ r < b.nrows, ∀ j < b.rowbytes, k ≠ b.addr r j

/-- An address in no row of the table reads as before (41_integ.md R141, R142). -/
theorem integWrites_get?_of_ne (s : State) (k : Nat)
    (h : ∀ r < s.rows + 1, ∀ j < 4 * (s.cols + 1), k ≠ s.tabBase + r * (4 * (s.cols + 1)) + j) :
    (integWrites s).get? k = s.mem.get? k := by
  refine Memory.get?_writeRows_of_not_mem _ _ _ _ _ fun r hr => ?_
  rw [List.length_map, integTable_length] at hr
  rw [List.getElem_map, integTable_row_bytes]
  by_contra hk
  exact h r hr (k - (s.tabBase + r * (4 * (s.cols + 1)))) (by omega) (by omega)

/-- The writes of a completed command, legal operands or not, leave every address outside its output buffers. -/
theorem memoryAfter_get?_of_outside (i : Instr) (s : State) (k : Nat) (h : OutsideOutputs (buffersOf i s) k) :
    (memoryAfter i s).get? k = s.mem.get? k := by
  cases i with
  | deint =>
    exact deintBody_get?_of_ne s k (h (s.dst0 s.cols) (by simp [buffersOf, deintBuffers]) rfl)
      (h (s.dst1 s.cols) (by simp [buffersOf, deintBuffers]) rfl)
  | integ => exact integWrites_get?_of_ne s k (h (s.tab .output) (by simp [buffersOf, integBuffers]) rfl)
  | athr => exact athrBody_get?_of_ne s k (h (s.dst0 s.cols) (by simp [buffersOf, athrBuffers]) rfl)
  | adapt =>
    have hdst := h (s.dst0 s.cols) (by simp [buffersOf, adaptBuffers]) rfl
    have htab := h (s.tab .output) (by simp [buffersOf, adaptBuffers]) rfl
    exact (athrBody_get?_of_ne (s.setMem (integWrites s)) k hdst).trans (integWrites_get?_of_ne s k htab)
  | range => exact rangeBody_get?_of_ne s k (h (s.dst0 s.cols) (by simp [buffersOf, rangeBuffers]) rfl)
  | nop | wr _ _ | rd _ => rfl

/-- A rejected command writes nothing, a completed one only its output buffers (20_memory.md R72). -/
theorem commandEnd_byte_of_outside (i : Instr) (s : State) (k : Nat) (h : OutsideOutputs (buffersOf i s) k) :
    (commandEnd i s).byte k = s.byte k := by
  cases hv : operandTests i s with
  | some r =>
    rw [commandEnd_of_rejection hv]
    exact State.byte_congr rfl rfl k
  | none =>
    rw [commandEnd_of_pass hv]
    exact byte_eq_of_get? s _ k rfl (memoryAfter_get?_of_outside i s k h)

/-- Settles O44, by `commandEnd_byte_of_outside`: every command ends in `commandEnd`. -/
theorem commandsWriteOnlyOutBuffers : Obligations.CommandsWriteOnlyOutBuffers :=
  fun s i hc => ⟨commandEnd i s, exec_command i s hc, commandEnd_byte_of_outside i s⟩

/-! ### The host's list and the parameters -/

theorem writeWindow_pending (r : WindowReg) (val : Word) (s : State) : (writeWindow r val s).pending = s.pending := by
  cases r with
  | cmd => exact issueWord_pending val s
  | id | status | ecause | eval | reserved | operand _ => rfl

theorem writeWindow_cfg (r : WindowReg) (val : Word) (s : State) : (writeWindow r val s).cfg = s.cfg := by
  cases r with
  | cmd => exact issueWord_cfg val s
  | id | status | ecause | eval | reserved | operand _ => rfl

theorem exec_pending_cfg (i : Instr) (s t : State) (h : exec i s = .next t) :
    t.pending = s.pending ∧ t.cfg = s.cfg := by
  rcases exec_next_cases i s t h with ⟨w, -, rfl⟩ | ⟨off, val, -, rfl | ⟨-, rfl⟩⟩ | ⟨off, -, rfl | rfl⟩
  · exact ⟨issueWord_pending w s, issueWord_cfg w s⟩
  · exact ⟨rfl, rfl⟩
  · exact ⟨writeWindow_pending _ val s, writeWindow_cfg _ val s⟩
  · exact ⟨rfl, rfl⟩
  · exact ⟨rfl, rfl⟩

/-- Settles O54, by what a step can do (`step_next_cases`): it acts on the state whose list has lost its head, and neither
an instruction nor a step of the host's own changes the list or the parameters. -/
theorem stepConsumesOneHostStep : Obligations.StepConsumesOneHostStep := by
  intro s t hstep
  rcases step_next_cases s t hstep with ⟨hp, rfl⟩ | ⟨hd, rest, hp, hcase⟩
  · rw [hp]
    exact ⟨rfl, rfl⟩
  · rw [hp]
    rcases hcase with ⟨i, -, hx⟩ | ⟨w, rfl⟩ | rfl | ⟨w, rfl⟩ | ⟨a, bs, -, rfl⟩ | ⟨-, rfl⟩ | ⟨-, rfl⟩
    · exact exec_pending_cfg i _ t hx
    all_goals exact ⟨rfl, rfl⟩

/-! ### The step that runs an instruction -/

theorem step_of_decoded {s : State} {h : HostStep} {rest : List HostStep} {i : Instr} (hp : s.pending = h :: rest)
    (hd : h.decoded s.cfg = some (.ok i)) : step s = exec i (s.setPending rest) := by
  rw [step_cons s h rest hp, hd]
  rfl

/-- Settles O7: both a statement and a bus access are decoded steps. -/
theorem stepRunsTheDecodedInstruction : Obligations.StepRunsTheDecodedInstruction := fun _ _ _ =>
  ⟨fun _ hp hd => step_of_decoded hp (congrArg some hd), fun _ hp hd => step_of_decoded hp (congrArg some hd)⟩

/-! ### The host's accesses to data memory, one rule per access and outcome -/

section
variable {s : State} {rest : List HostStep} {a v : Word} {width : Width}

theorem step_of_memRead (hp : s.pending = .memRead a width :: rest) :
    step s = hostMemRead a width (s.setPending rest) := step_cons s _ rest hp

theorem step_of_memWrite (hp : s.pending = .memWrite a width v :: rest) :
    step s = hostMemWrite a width v (s.setPending rest) := step_cons s _ rest hp

theorem step_of_memRead_absent (hp : s.pending = .memRead a width :: rest)
    (h : s.cfg.memSize < a.toNat + width.bytes) : step s = .fault .hostAddressAbsent :=
  (step_of_memRead hp).trans (if_neg (Nat.not_le.2 h))

theorem step_of_memWrite_absent (hp : s.pending = .memWrite a width v :: rest)
    (h : s.cfg.memSize < a.toNat + width.bytes) : step s = .fault .hostAddressAbsent :=
  (step_of_memWrite hp).trans (if_neg (Nat.not_le.2 h))

theorem step_of_memRead_byte (hp : s.pending = .memRead a .byte :: rest) (h : a.toNat < s.cfg.memSize) :
    step s = .next ((s.setPending rest).setReadData ((s.byte a.toNat).setWidth 32)) :=
  (step_of_memRead hp).trans (if_pos h)

theorem step_of_memRead_word (hp : s.pending = .memRead a .word :: rest) (h : a.toNat + 4 ≤ s.cfg.memSize)
    (hv : s.word a.toNat = v) : step s = .next ((s.setPending rest).setReadData v) := by
  subst hv
  exact (step_of_memRead hp).trans (if_pos h)

theorem step_of_memWrite_byte (hp : s.pending = .memWrite a .byte v :: rest) (h : a.toNat < s.cfg.memSize) :
    step s = .next ((s.setPending rest).writeBytes a.toNat [v.extractLsb' 0 8]) := by
  rw [← BitVec.setWidth_eq_extractLsb' (by decide)]
  exact (step_of_memWrite hp).trans (if_pos h)

theorem step_of_memWrite_word (hp : s.pending = .memWrite a .word v :: rest) (h : a.toNat + 4 ≤ s.cfg.memSize) :
    step s = .next ((s.setPending rest).writeBytes a.toNat (leBytes v)) :=
  (step_of_memWrite hp).trans (if_pos h)

end

/-! ### The bytes after a host write -/

theorem writeBytes_byte_of_mem (s : State) (a : Nat) (bs : List Byte) (j : Nat) (h : j < bs.length) :
    (s.writeBytes a bs).byte (a + j) = bs[j] :=
  byte_of_get? _ _ _ (Memory.get?_writeRun_of_mem s.mem a bs j h)

theorem writeBytes_byte_of_not_mem (s : State) (a : Nat) (bs : List Byte) (k : Nat) (h : k < a ∨ a + bs.length ≤ k) :
    (s.writeBytes a bs).byte k = s.byte k :=
  byte_eq_of_get? s _ k rfl (Memory.get?_writeRun_of_not_mem s.mem a bs k h)

/-- A word stands in memory from its low byte up (20_memory.md R64). -/
theorem writeBytes_leBytes_byte (s : State) (a : Nat) (v : Word) :
    (s.writeBytes a (leBytes v)).byte a = v.extractLsb' 0 8 ∧
      (s.writeBytes a (leBytes v)).byte (a + 1) = v.extractLsb' 8 8 ∧
      (s.writeBytes a (leBytes v)).byte (a + 2) = v.extractLsb' 16 8 ∧
      (s.writeBytes a (leBytes v)).byte (a + 3) = v.extractLsb' 24 8 := by
  have hbyte : ∀ j (hj : j < 4), (s.writeBytes a (leBytes v)).byte (a + j) = (leBytes v)[j] :=
    writeBytes_byte_of_mem s a (leBytes v)
  exact ⟨hbyte 0 (by decide), hbyte 1 (by decide), hbyte 2 (by decide), hbyte 3 (by decide)⟩

/-- A word written is read back (20_memory.md R64). -/
theorem writeBytes_leBytes_word (s : State) (a : Nat) (v : Word) : (s.writeBytes a (leBytes v)).word a = v := by
  obtain ⟨h0, h1, h2, h3⟩ := writeBytes_leBytes_byte s a v
  rw [State.word, h0, h1, h2, h3, ofLeBytes_leBytes]

/-- Settles O45: the write is `writeBytes` of the word's bytes, and the read assembles them by `writeBytes_leBytes_word`. -/
theorem wordsAreLittleEndian : Obligations.WordsAreLittleEndian := by
  intro s a v rest hp hmem
  obtain ⟨h0, h1, h2, h3⟩ := writeBytes_leBytes_byte (s.setPending (.memRead a .word :: rest)) a.toNat v
  refine ⟨_, _, step_of_memWrite_word hp hmem, step_of_memRead_word rfl hmem (writeBytes_leBytes_word _ _ v), rfl,
    h0, h1, h2, h3, fun k hk => ?_, rfl⟩
  exact writeBytes_byte_of_not_mem (s.setPending (.memRead a .word :: rest)) _ _ k hk

/-- Settles O57, one clause for each of the three accesses. -/
theorem hostReadsAndWritesDataMemory : Obligations.HostReadsAndWritesDataMemory := by
  intro s a v rest
  refine ⟨fun hp hmem => ?_, step_of_memRead_byte, fun hp hmem => step_of_memRead_word hp hmem rfl⟩
  refine ⟨_, step_of_memWrite_byte hp hmem, rfl, ?_, fun k hk => ?_⟩
  · exact writeBytes_byte_of_mem (s.setPending rest) a.toNat [v.extractLsb' 0 8] 0 Nat.zero_lt_one
  · exact writeBytes_byte_of_not_mem (s.setPending rest) _ _ k (by rw [List.length_singleton]; omega)

/-- Settles O46: the access does not fit, whichever it is. -/
theorem absentAddressFaults : Obligations.AbsentAddressFaults := fun _ _ _ _ _ habsent =>
  ⟨fun hp => step_of_memRead_absent hp habsent, fun hp => step_of_memWrite_absent hp habsent⟩

end Sys2Proof.Machine
end

section
/-! The encoding family: the decoder against the encoder, the illegal words, and the operand registers that a command does
not list (30_encoding.md). -/

namespace Sys2Proof

/-! ### The decoder by format -/

theorem decode_command_eq_ok_iff (w : Word) (i : Instr) :
    decode (.command w) = .ok i ↔ ∃ op, opcodeOf w = some op ∧ op.instr = i := by
  cases hop : opcodeOf w <;> simp [decode, hop]

/-- A format H transaction written from its parts is the access that its parts say (R96). -/
theorem decode_transaction (b : BitVec 1) (off : BitVec 8) (v : Word) :
    decode (.transaction (b ++ off ++ v)) = accessAt (b.getLsbD 0) off v := by
  obtain ⟨hwrite, hoff, hdata⟩ := transaction_fields b off v
  rw [decode, hwrite, hoff, hdata]

/-- A transaction is its three fields side by side, so no two of them have the same fields (R96). -/
theorem transaction_of_fields (t : BitVec 41) :
    BitVec.ofBool (transactionIsWrite t) ++ transactionOffset t ++ transactionData t = t := by
  apply BitVec.eq_of_getLsbD_eq
  intro j hj
  simp only [BitVec.getLsbD_append, transactionIsWrite, transactionOffset, transactionData,
    BitVec.getLsbD_extractLsb', BitVec.getLsbD_ofBool]
  by_cases hdata : j < 32
  · simp [hdata]
  · by_cases hoff : j < 40
    · simp [hdata, show j - 32 < 8 by omega, show 32 + (j - 32) = j by omega]
    · obtain rfl : j = 40 := by omega
      simp

/-- The accesses that decode, and to what (R96, 44_system.md R213). -/
theorem accessAt_eq_ok_iff (isWrite : Bool) (off : BitVec 8) (data : Word) (i : Instr) :
    accessAt isWrite off data = .ok i ↔ offsetWf off = true ∧ (if isWrite then .wr off data else .rd off) = i := by
  unfold accessAt offsetWf
  split
  · simp_all
  · split <;> simp_all

theorem accessAt_of_offsetWf {off : BitVec 8} (h : offsetWf off = true) (isWrite : Bool) (data : Word) :
    accessAt isWrite off data = .ok (if isWrite then .wr off data else .rd off) :=
  (accessAt_eq_ok_iff isWrite off data _).2 ⟨h, rfl⟩

/-- A transaction that decodes to a `WR` has the direction bit set and the fields of that `WR` (R96). -/
theorem fields_of_decode_wr {t : BitVec 41} {off : BitVec 8} {val : Word}
    (h : decode (.transaction t) = .ok (.wr off val)) :
    transactionIsWrite t = true ∧ transactionOffset t = off ∧ transactionData t = val := by
  obtain ⟨-, hi⟩ := (accessAt_eq_ok_iff _ _ _ _).1 h
  split at hi <;> cases hi
  exact ⟨‹_›, rfl, rfl⟩

/-- Settles O1: each command by its word, a host access by the fields of its transaction. -/
theorem decodeOfEncode : Obligations.DecodeOfEncode := by
  intro i hwf
  cases i with
  | nop | deint | integ | athr | adapt | range => rfl
  | wr off val => exact (decode_transaction 1 off val).trans (accessAt_of_offsetWf hwf true val)
  | rd off => exact (decode_transaction 0 off 0).trans (accessAt_of_offsetWf hwf false 0)

/-- Settles O2: a command word has one opcode (`encode_of_opcodeOf`), and a transaction is its fields. -/
theorem decodedWordHasOneMeaning : Obligations.DecodedWordHasOneMeaning := by
  refine ⟨fun w i h => ?_, fun t off val h => ?_⟩
  · obtain ⟨op, hop, rfl⟩ := (decode_command_eq_ok_iff w i).1 h
    exact encode_of_opcodeOf w op hop
  · obtain ⟨hwrite, rfl, rfl⟩ := fields_of_decode_wr h
    have ht := transaction_of_fields t
    rw [hwrite] at ht
    exact congrArg HostWord.transaction ht

theorem wf_instr (op : Opcode) : op.instr.wf = true := by cases op <;> rfl

theorem wf_of_decode (hw : HostWord) (i : Instr) (h : decode hw = .ok i) : i.wf = true := by
  cases hw with
  | command w =>
    obtain ⟨op, -, rfl⟩ := (decode_command_eq_ok_iff w i).1 h
    exact wf_instr op
  | transaction t => exact wf_of_accessAt _ _ _ i h

/-- On the bus only the third branch, the one aligned access, decodes (44_system.md R213). -/
theorem wf_of_decodeAccess (cfg : Config) (a : BusAccess) (i : Instr) (h : decodeAccess cfg a = .ok i) :
    i.wf = true := by
  simp only [decodeAccess] at h
  split at h
  · cases h
  · split at h
    · exact wf_of_accessAt _ _ _ i h
    · cases h

/-- Settles O3. -/
theorem decodedInstructionIsWellFormed : Obligations.DecodedInstructionIsWellFormed :=
  ⟨wf_of_decode, wf_of_decodeAccess⟩

/-- Settles O4, by running the decoder on the ten words. -/
theorem specWordsDecode : Obligations.SpecWordsDecode := by
  unfold Obligations.SpecWordsDecode
  decide

end Sys2Proof

namespace Sys2Proof.Machine

/-! ### Command words -/

/-- A command statement is the write of its word to `CMD` (R97). -/
theorem exec_instr_eq_exec_wr {w : Word} {op : Opcode} (h : opcodeOf w = some op) (s : State) :
    exec op.instr s = exec (.wr 0x04 w) s := by
  rw [exec_command _ s (isCommand_instr op), exec_wr_cmd, issueWord_of_opcodeOf h]

/-- Settles O6: `exec_instr_eq_exec_wr` at the six words of R92. -/
theorem commandStatementIsWriteToCmd : Obligations.CommandStatementIsWriteToCmd := fun s =>
  ⟨exec_instr_eq_exec_wr (op := .nop) (by decide) s, exec_instr_eq_exec_wr (op := .deint) (by decide) s,
    exec_instr_eq_exec_wr (op := .integ) (by decide) s, exec_instr_eq_exec_wr (op := .athr) (by decide) s,
    exec_instr_eq_exec_wr (op := .adapt) (by decide) s, exec_instr_eq_exec_wr (op := .range) (by decide) s⟩

/-- A word that R92 lists ends completed or rejected by an operand test, none of which answers `E_OPCODE` (R93). -/
theorem issueWord_ecause_ne_opcode {w : Word} (h : opcodeOf w ≠ none) (s : State) :
    (issueWord w s).ecause ≠ some .opcode := by
  rcases issueWord_cases w s with ⟨hnone, -⟩ | ⟨-, ⟨e, info, he, hend⟩ | ⟨m, o, hend⟩⟩
  · exact absurd hnone h
  · simpa [hend] using he
  · simp [hend]

/-- Settles O5: the illegal words of R93 are the ones that `opcodeOf` does not know. -/
theorem illegalWordsAreRejected : Obligations.IllegalWordsAreRejected := by
  intro s w
  rw [← opcodeOf_eq_none_iff, exec_wr_cmd]
  exact ⟨fun h => congrArg Host.Outcome.next (issueWord_of_illegal h s),
    fun h => ⟨_, rfl, issueWord_ecause_ne_opcode h s⟩⟩

/-- Settles O8: bits that decode to no instruction run as `runRejected`. -/
theorem stepRejectsIllegalWord : Obligations.StepRejectsIllegalWord := by
  intro s rest w hp hdec
  rw [step_cons s _ rest hp, HostStep.decoded, hdec]
  exact congrArg Host.Outcome.next (rejectWord_eq w _)

/-! ### The readings of the operand registers after a write to another register -/

section
variable {s : State} {k : Fin 16} {v : Word}

theorem setReg_src0Base (h : k ≠ 0) : (s.setReg k v).src0Base = s.src0Base :=
  congrArg BitVec.toNat (s.setReg_x_ne k 0 v h.symm)
theorem setReg_src0Stride (h : k ≠ 1) : (s.setReg k v).src0Stride = s.src0Stride :=
  congrArg BitVec.toNat (s.setReg_x_ne k 1 v h.symm)
theorem setReg_src1Base (h : k ≠ 2) : (s.setReg k v).src1Base = s.src1Base :=
  congrArg BitVec.toNat (s.setReg_x_ne k 2 v h.symm)
theorem setReg_src1Stride (h : k ≠ 3) : (s.setReg k v).src1Stride = s.src1Stride :=
  congrArg BitVec.toNat (s.setReg_x_ne k 3 v h.symm)
theorem setReg_dst0Base (h : k ≠ 4) : (s.setReg k v).dst0Base = s.dst0Base :=
  congrArg BitVec.toNat (s.setReg_x_ne k 4 v h.symm)
theorem setReg_dst0Stride (h : k ≠ 5) : (s.setReg k v).dst0Stride = s.dst0Stride :=
  congrArg BitVec.toNat (s.setReg_x_ne k 5 v h.symm)
theorem setReg_dst1Base (h : k ≠ 6) : (s.setReg k v).dst1Base = s.dst1Base :=
  congrArg BitVec.toNat (s.setReg_x_ne k 6 v h.symm)
theorem setReg_dst1Stride (h : k ≠ 7) : (s.setReg k v).dst1Stride = s.dst1Stride :=
  congrArg BitVec.toNat (s.setReg_x_ne k 7 v h.symm)
theorem setReg_tabBase (h : k ≠ 8) : (s.setReg k v).tabBase = s.tabBase :=
  congrArg BitVec.toNat (s.setReg_x_ne k 8 v h.symm)
theorem setReg_rows (h : k ≠ 9) : (s.setReg k v).rows = s.rows :=
  congrArg BitVec.toNat (s.setReg_x_ne k 9 v h.symm)
theorem setReg_cols (h : k ≠ 10) : (s.setReg k v).cols = s.cols :=
  congrArg BitVec.toNat (s.setReg_x_ne k 10 v h.symm)
theorem setReg_delta (h : k ≠ 11) : (s.setReg k v).delta = s.delta :=
  congrArg BitVec.toInt (s.setReg_x_ne k 11 v h.symm)
theorem setReg_lowU (h : k ≠ 12) : (s.setReg k v).lowU = s.lowU :=
  congrArg BitVec.toInt (s.setReg_x_ne k 12 v h.symm)
theorem setReg_highU (h : k ≠ 13) : (s.setReg k v).highU = s.highU :=
  congrArg BitVec.toInt (s.setReg_x_ne k 13 v h.symm)
theorem setReg_lowV (h : k ≠ 14) : (s.setReg k v).lowV = s.lowV :=
  congrArg BitVec.toInt (s.setReg_x_ne k 14 v h.symm)
theorem setReg_highV (h : k ≠ 15) : (s.setReg k v).highV = s.highV :=
  congrArg BitVec.toInt (s.setReg_x_ne k 15 v h.symm)

/-! Pixels and block means: the bytes are the same, and so are the addresses. -/

theorem setReg_srcByte (hbase : k ≠ 0) (hstride : k ≠ 1) : (s.setReg k v).srcByte = s.srcByte := by
  funext r c
  simp only [State.srcByte, State.setReg_byte, setReg_src0Base hbase, setReg_src0Stride hstride]

theorem setReg_src1Byte (hbase : k ≠ 2) (hstride : k ≠ 3) : (s.setReg k v).src1Byte = s.src1Byte := by
  funext r c
  simp only [State.src1Byte, State.setReg_byte, setReg_src1Base hbase, setReg_src1Stride hstride]

theorem setReg_blockMean (hbase : k ≠ 8) (hcols : k ≠ 10) : blockMean (s.setReg k v) = blockMean s := by
  funext i j
  simp only [blockMean, blockSum, State.fourCorners, State.tableWord, State.taddr, State.setReg_word,
    setReg_tabBase hbase, setReg_cols hcols]

/-! ### What a command computes does not depend on an unlisted register (R95) -/

/-- `ADAPT` lists the registers of `INTEG`, its first phase, among its own (R95, 42_athr.md R170). -/
theorem unlisted_integ_of_adapt (h : k ∉ registersRead .adapt) : k ∉ registersRead .integ := by
  have hsub : registersRead .integ ⊆ registersRead .adapt := by decide
  exact fun hk => h (hsub hk)

theorem setReg_deintByte (h : k ∉ registersRead .deint) (p : Plane) :
    deintByte (s.setReg k v) p = deintByte s p := by
  simp only [registersRead, List.mem_cons, List.not_mem_nil, or_false, not_or] at h
  funext r c
  simp [deintByte, setReg_srcByte, h]

theorem setReg_deintBody_mem (h : k ∉ registersRead .deint) : (deintBody (s.setReg k v)).mem = (deintBody s).mem := by
  have hbyte := setReg_deintByte (s := s) (v := v) h
  simp only [registersRead, List.mem_cons, List.not_mem_nil, or_false, not_or] at h
  simp [deintBody, hbyte, setReg_dst0Base, setReg_dst0Stride, setReg_dst1Base, setReg_dst1Stride, setReg_rows,
    setReg_cols, h]

theorem setReg_sourceImage (h : k ∉ registersRead .integ) : sourceImage (s.setReg k v) = sourceImage s := by
  simp only [registersRead, List.mem_cons, List.not_mem_nil, or_false, not_or] at h
  simp [sourceImage, setReg_srcByte, setReg_rows, setReg_cols, h]

theorem setReg_imageTotal (h : k ∉ registersRead .integ) : imageTotal (s.setReg k v) = imageTotal s := by
  rw [imageTotal, setReg_sourceImage h, imageTotal]

theorem setReg_integWrites (h : k ∉ registersRead .integ) : integWrites (s.setReg k v) = integWrites s := by
  have himage := setReg_sourceImage (s := s) (v := v) h
  simp only [registersRead, List.mem_cons, List.not_mem_nil, or_false, not_or] at h
  simp [integWrites, integTable, himage, setReg_tabBase, setReg_cols, h]

theorem setReg_athrByte (h : k ∉ registersRead .athr) : athrByte (s.setReg k v) = athrByte s := by
  simp only [registersRead, List.mem_cons, List.not_mem_nil, or_false, not_or] at h
  funext r c
  obtain ⟨h0, h1, -, -, h8, h9, h10, h11⟩ := h
  rw [athrByte, setReg_srcByte h0 h1, setReg_blockMean h8 h10, setReg_rows h9, setReg_cols h10, setReg_delta h11,
    athrByte]

theorem setReg_athrBody_mem (h : k ∉ registersRead .athr) : (athrBody (s.setReg k v)).mem = (athrBody s).mem := by
  have hbyte := setReg_athrByte (s := s) (v := v) h
  simp only [registersRead, List.mem_cons, List.not_mem_nil, or_false, not_or] at h
  simp [athrBody, hbyte, setReg_dst0Base, setReg_dst0Stride, setReg_rows, setReg_cols, h]

theorem setReg_rangeByte (h : k ∉ registersRead .range) : rangeByte (s.setReg k v) = rangeByte s := by
  simp only [registersRead, List.mem_cons, List.not_mem_nil, or_false, not_or] at h
  funext r c
  simp [rangeByte, setReg_srcByte, setReg_src1Byte, setReg_lowU, setReg_highU, setReg_lowV, setReg_highV, h]

theorem setReg_rangeBody_mem (h : k ∉ registersRead .range) : (rangeBody (s.setReg k v)).mem = (rangeBody s).mem := by
  have hbyte := setReg_rangeByte (s := s) (v := v) h
  simp only [registersRead, List.mem_cons, List.not_mem_nil, or_false, not_or] at h
  simp [rangeBody, hbyte, setReg_dst0Base, setReg_dst0Stride, setReg_rows, setReg_cols, h]

theorem memoryAfter_setReg (i : Instr) (h : k ∉ registersRead i) :
    memoryAfter i (s.setReg k v) = memoryAfter i s := by
  cases i with
  | deint => exact setReg_deintBody_mem h
  | integ => exact setReg_integWrites h
  | athr => exact setReg_athrBody_mem h
  | adapt =>
    have hinteg := unlisted_integ_of_adapt h
    calc memoryAfter .adapt (s.setReg k v)
        = (athrBody ((s.setMem (integWrites s)).setReg k v)).mem := by rw [memoryAfter, setReg_integWrites hinteg]; rfl
      _ = memoryAfter .adapt s := setReg_athrBody_mem h
  | range => exact setReg_rangeBody_mem h
  | nop | wr _ _ | rd _ => rfl

theorem overflowAfter_setReg (i : Instr) (h : k ∉ registersRead i) :
    overflowAfter i (s.setReg k v) = overflowAfter i s := by
  cases i with
  | integ => rw [overflowAfter, setReg_imageTotal h]; rfl
  | adapt =>
    have hinteg := unlisted_integ_of_adapt h
    rw [overflowAfter, setReg_imageTotal hinteg]; rfl
  | nop | deint | athr | range | wr _ _ | rd _ => rfl

theorem buffersOf_setReg (i : Instr) (h : k ∉ registersRead i) : buffersOf i (s.setReg k v) = buffersOf i s := by
  cases i with
  | nop | wr _ _ | rd _ => rfl
  | deint | integ | athr | adapt | range =>
    simp only [registersRead, List.mem_cons, List.not_mem_nil, or_false, not_or] at h
    simp [buffersOf, deintBuffers, integBuffers, athrBuffers, adaptBuffers, rangeBuffers, State.src0, State.src1,
      State.dst0, State.dst1, State.tab, setReg_src0Base, setReg_src0Stride, setReg_src1Base, setReg_src1Stride,
      setReg_dst0Base, setReg_dst0Stride, setReg_dst1Base, setReg_dst1Stride, setReg_tabBase, setReg_rows,
      setReg_cols, h]

theorem validateWith_congr {buffers : State → List Buffer} {s t : State} (hbufs : buffers t = buffers s)
    (hrows : t.rows = s.rows) (hcols : t.cols = s.cols) (hcfg : t.cfg = s.cfg) :
    validateWith buffers t = validateWith buffers s := by
  simp only [validateWith, checkGeometry, hbufs, hrows, hcols, hcfg]

/-- `WR` and `RD` are left out: they have no operand tests, and `operandTests` gives them the test of the geometry. -/
theorem operandTests_setReg (i : Instr) (hc : isCommand i = true) (h : k ∉ registersRead i) :
    operandTests i (s.setReg k v) = operandTests i s := by
  have hbufs := buffersOf_setReg (s := s) (v := v) i h
  cases i with
  | nop => rfl
  | wr _ _ | rd _ => cases hc
  | deint | integ | athr | adapt | range =>
    simp only [registersRead, List.mem_cons, List.not_mem_nil, or_false, not_or] at h
    exact validateWith_congr hbufs (setReg_rows (by simp [h])) (setReg_cols (by simp [h])) rfl

/-- A command ends in the same state but for the unlisted register, which keeps its value (R95). -/
theorem commandEnd_setReg (i : Instr) (hc : isCommand i = true) (h : k ∉ registersRead i) :
    commandEnd i (s.setReg k v) = (commandEnd i s).setReg k v := by
  have htests := operandTests_setReg (s := s) (v := v) i hc h
  cases hv : operandTests i s with
  | some r =>
    rw [commandEnd_of_rejection hv, commandEnd_of_rejection (htests.trans hv)]
    rfl
  | none =>
    rw [commandEnd_of_pass hv, commandEnd_of_pass (htests.trans hv), memoryAfter_setReg i h, overflowAfter_setReg i h]
    rfl

end

/-- Settles O20: both runs end in `commandEnd`, which reads no unlisted register (`commandEnd_setReg`). -/
theorem unlistedRegistersAreIgnored : Obligations.UnlistedRegistersAreIgnored :=
  fun s i _ _ hc hk => ⟨commandEnd i s, exec_command i s hc,
    (exec_command i _ hc).trans (congrArg Host.Outcome.next (commandEnd_setReg i hc hk))⟩

end Sys2Proof.Machine
end

section
/-! The `DEINT` family: the errors of the command, the two planes that it leaves, the exchange of its destinations, and the
pseudocode's loop (40_deint.md). -/

namespace Sys2Proof.Machine

/-! ### The errors in their order -/

/-- What a command answers, by the first of its operand tests that fails (60_exceptions.md R250, R251). -/
theorem exec_reports (i : Instr) (hc : isCommand i = true) (s : State) (r : Option (CmdError × Word))
    (h : (operandTests i s).map (fun e => (e.error, e.info)) = r) :
    ∃ t, exec i s = .next t ∧ (t.ecause ≠ none → t.mem = s.mem ∧ t.status.ovf = s.status.ovf) ∧ t.reports r :=
  ⟨commandEnd i s, exec_command i s hc, issue_reports _ s _ _ _ _ r rfl h⟩

/-- The overlap test of `DEINT`: once `DST0` is clear of both other buffers, `DST1` can only meet `SRC0`. -/
theorem checkOverlap_deintBuffers (s : State) : checkOverlap (deintBuffers s) =
    if regionsMeet s.dst0Base (s.dst0 s.cols).extent s.src0Base (s.src0 (2 * s.cols)).extent ∨
        regionsMeet s.dst0Base (s.dst0 s.cols).extent s.dst1Base (s.dst1 s.cols).extent then
      some ⟨.overlap, 4⟩
    else if regionsMeet s.dst1Base (s.dst1 s.cols).extent s.src0Base (s.src0 (2 * s.cols)).extent then
      some ⟨.overlap, 6⟩
    else none := by
  rw [deintBuffers, checkOverlap_three _ _ _ rfl (by simp [State.src0, State.dst0])
    (by simp [State.src0, State.dst1]) (by simp [State.dst0, State.dst1])]
  refine ite_congr (propext (and_iff_right rfl)) (fun _ => rfl) fun hdst0 => ?_
  refine ite_congr (propext ((and_iff_right rfl).trans (or_iff_left fun hmeet => ?_))) (fun _ => rfl) fun _ => rfl
  exact hdst0 (.inr ((regionsMeet_comm _ _ _ _).1 hmeet))

/-- The operand tests of `DEINT` in the order of 40_deint.md R125. -/
theorem validateWith_deintBuffers (s : State) : validateWith deintBuffers s =
    if 16384 < s.rows then some ⟨.geom, 9⟩
    else if 16384 < s.cols then some ⟨.geom, 10⟩
    else if s.src0Stride < 2 * s.cols then some ⟨.stride, 1⟩
    else if s.dst0Stride < s.cols then some ⟨.stride, 5⟩
    else if s.dst1Stride < s.cols then some ⟨.stride, 7⟩
    else if beyondMemory s.cfg.memSize s.src0Base (s.src0 (2 * s.cols)).extent then some ⟨.bus, 0⟩
    else if beyondMemory s.cfg.memSize s.dst0Base (s.dst0 s.cols).extent then some ⟨.bus, 4⟩
    else if beyondMemory s.cfg.memSize s.dst1Base (s.dst1 s.cols).extent then some ⟨.bus, 6⟩
    else checkOverlap (deintBuffers s) := by
  have halign (x : Option Rejection) : (checkAlign (deintBuffers s)).or x = x := by
    simp [deintBuffers, checkAlign_cons_or, checkAlign_nil_or, State.src0, State.dst0, State.dst1]
  rw [validateWith, halign, checkGeometry_or]
  simp only [deintBuffers, checkStrides_cons_or, checkStrides_nil_or, checkBus_cons_or, checkBus_nil_or]
  rfl

/-- Settles O22, by the chain of `validateWith_deintBuffers`. -/
theorem deintErrorsInOrder : Obligations.DeintErrorsInOrder := by
  intro s R C M src dst0 dst1
  obtain ⟨t, hexec, hmem, hreports⟩ := exec_reports .deint rfl s _ rfl
  refine ⟨t, hexec, fun h => (hmem h).1, ?_⟩
  rw [show operandTests .deint s = _ from validateWith_deintBuffers s, checkOverlap_deintBuffers] at hreports
  simp only [apply_ite (Option.map _), Option.map_some, Option.map_none] at hreports
  exact hreports
/-! ### The bytes that `DEINT` leaves -/

/-- On legal operands `DEINT` completes (R121, 60_exceptions.md R250). -/
theorem exec_deint_of_legal {s : State} (h : Legal (deintBuffers s) s) :
    exec .deint s = .next (s.completed 0x00000001 (deintBody s).mem s.status.ovf) :=
  congrArg Host.Outcome.next (deintCommand_of_legal s h)

/-- Address `k` is one of the two that element `(r, c)` is written to (R121). -/
def IsPlaneAddr (s : State) (r c k : Nat) : Prop :=
  k = (s.dst0 s.cols).addr r c ∨ k = (s.dst1 s.cols).addr r c

/-- `t` holds the two planes of `s` and is otherwise as `s`, byte for byte (R121). -/
structure Deinterleaved (s t : State) : Prop where
  dst0 : ∀ r < s.rows, ∀ c < s.cols, t.byte ((s.dst0 s.cols).addr r c) = deintByte s .u r c
  dst1 : ∀ r < s.rows, ∀ c < s.cols, t.byte ((s.dst1 s.cols).addr r c) = deintByte s .v r c
  outside : ∀ k, (∀ r < s.rows, ∀ c < s.cols, ¬IsPlaneAddr s r c k) → t.byte k = s.byte k

/-- `Deinterleaved` fixes every byte: an element's two by the planes, any other by the frame. -/
theorem Deinterleaved.byte_eq {s t u : State} (ht : Deinterleaved s t) (hu : Deinterleaved s u) (k : Nat) :
    t.byte k = u.byte k := by
  by_cases hk : ∀ r < s.rows, ∀ c < s.cols, ¬IsPlaneAddr s r c k
  · rw [ht.outside k hk, hu.outside k hk]
  · push Not at hk
    obtain ⟨r, hr, c, hc, rfl | rfl⟩ := hk
    · rw [ht.dst0 r hr c hc, hu.dst0 r hr c hc]
    · rw [ht.dst1 r hr c hc, hu.dst1 r hr c hc]

theorem deinterleaved_deint {s : State} (h : Legal (deintBuffers s) s) :
    Deinterleaved s (s.completed 0x00000001 (deintBody s).mem s.status.ovf) where
  dst0 r hr c hc := deintBody_byte_dst0 s _ h rfl r c hr hc
  dst1 r hr c hc := deintBody_byte_dst1 s _ h rfl r c hr hc
  outside k hk := byte_eq_of_get? s _ k rfl <| deintBody_get?_of_ne s k
    (fun r hr c hc hkr => hk r hr c hc (.inl hkr)) (fun r hr c hc hkr => hk r hr c hc (.inr hkr))

theorem deintByte_u (s : State) (r c : Nat) : deintByte s .u r c =
    if s.cfg.chromaFirst = .u then s.srcByte r (2 * c) else s.srcByte r (2 * c + 1) := rfl

theorem deintByte_v (s : State) (r c : Nat) : deintByte s .v r c =
    if s.cfg.chromaFirst = .u then s.srcByte r (2 * c + 1) else s.srcByte r (2 * c) := by
  cases h : s.cfg.chromaFirst <;> simp [deintByte, h]

/-- Settles O27: the planes and the frame are `deinterleaved_deint`. -/
theorem deintSplitsBytePairs : Obligations.DeintSplitsBytePairs := by
  intro s h
  obtain ⟨hdst0, hdst1, houtside⟩ := deinterleaved_deint h
  refine ⟨_, exec_deint_of_legal h, rfl, fun r hr c hc => ⟨?_, ?_⟩, fun k hk => houtside k fun r hr c hc => ?_⟩
  · exact (hdst0 r hr c hc).trans (deintByte_u s r c)
  · exact (hdst1 r hr c hc).trans (deintByte_v s r c)
  · exact not_or.2 (hk r hr c hc)

/-! ### The converse plane order -/

/-- The block with plane `p` first in each pair (R122). -/
def State.withChromaFirst (s : State) (p : Plane) : State := { s with cfg := { s.cfg with chromaFirst := p } }

/-- The register pairs of `DST0` and `DST1` exchanged. -/
def State.swapDestinations (s : State) : State :=
  { s with x := (((s.x.set 4 s.x[6]).set 5 s.x[7]).set 6 s.x[4]).set 7 s.x[5] }

section
variable (s : State)

@[simp] theorem swapDestinations_src0Base : s.swapDestinations.src0Base = s.src0Base := by
  simp [State.swapDestinations, State.src0Base]
@[simp] theorem swapDestinations_src0Stride : s.swapDestinations.src0Stride = s.src0Stride := by
  simp [State.swapDestinations, State.src0Stride]
@[simp] theorem swapDestinations_dst0Base : s.swapDestinations.dst0Base = s.dst1Base := by
  simp [State.swapDestinations, State.dst0Base, State.dst1Base]
@[simp] theorem swapDestinations_dst0Stride : s.swapDestinations.dst0Stride = s.dst1Stride := by
  simp [State.swapDestinations, State.dst0Stride, State.dst1Stride]
@[simp] theorem swapDestinations_dst1Base : s.swapDestinations.dst1Base = s.dst0Base := by
  simp [State.swapDestinations, State.dst0Base, State.dst1Base]
@[simp] theorem swapDestinations_dst1Stride : s.swapDestinations.dst1Stride = s.dst0Stride := by
  simp [State.swapDestinations, State.dst0Stride, State.dst1Stride]
@[simp] theorem swapDestinations_rows : s.swapDestinations.rows = s.rows := by
  simp [State.swapDestinations, State.rows]
@[simp] theorem swapDestinations_cols : s.swapDestinations.cols = s.cols := by
  simp [State.swapDestinations, State.cols]

theorem swapDestinations_srcByte : s.swapDestinations.srcByte = s.srcByte := by
  funext r c
  simp only [State.srcByte, swapDestinations_src0Base, swapDestinations_src0Stride]
  rfl

theorem swapDestinations_dst0_addr : (s.swapDestinations.dst0 s.cols).addr = (s.dst1 s.cols).addr := by
  funext r c
  simp [Buffer.addr, State.dst0, State.dst1]

theorem swapDestinations_dst1_addr : (s.swapDestinations.dst1 s.cols).addr = (s.dst0 s.cols).addr := by
  funext r c
  simp [Buffer.addr, State.dst0, State.dst1]

theorem isPlaneAddr_swapDestinations (r c k : Nat) : IsPlaneAddr s.swapDestinations r c k ↔ IsPlaneAddr s r c k := by
  rw [IsPlaneAddr, swapDestinations_cols, swapDestinations_dst0_addr, swapDestinations_dst1_addr, or_comm, IsPlaneAddr]

end

/-- Exchanged destinations are tested as before, in the exchanged order. -/
theorem legal_swapDestinations {s : State} (h : Legal (deintBuffers s) s) :
    Legal (deintBuffers s.swapDestinations) s.swapDestinations := by
  simp only [Legal, deintBuffers, List.forall_mem_cons, State.src0, State.dst0, State.dst1, Buffer.extent, reduceCtorEq,
    ne_eq, not_true, not_false_eq_true, true_imp_iff, List.not_mem_nil, IsEmpty.forall_iff, implies_true, true_and,
    and_true, swapDestinations_src0Base, swapDestinations_src0Stride, swapDestinations_dst0Base,
    swapDestinations_dst0Stride, swapDestinations_dst1Base, swapDestinations_dst1Stride, swapDestinations_rows,
    swapDestinations_cols] at h ⊢
  obtain ⟨hrows, hcols, ⟨hsrc, hdst0, hdst1⟩, ⟨h0src, h01⟩, h1src, h10⟩ := h
  exact ⟨hrows, hcols, ⟨hsrc, hdst1, hdst0⟩, ⟨h1src, h10⟩, h0src, h01⟩

/-- Each destination register pair gets the same byte of a pair under either way to exchange the planes (R122). -/
theorem deintByte_swapDestinations (s : State) (r c : Nat) :
    deintByte (s.withChromaFirst .u).swapDestinations .u r c = deintByte (s.withChromaFirst .v) .v r c ∧
      deintByte (s.withChromaFirst .u).swapDestinations .v r c = deintByte (s.withChromaFirst .v) .u r c := by
  simp only [deintByte, swapDestinations_srcByte]
  exact ⟨rfl, rfl⟩

/-- What the exchanged destinations hold is what the converse plane order leaves (R122). -/
theorem Deinterleaved.of_swapDestinations {s t : State}
    (h : Deinterleaved (s.withChromaFirst .u).swapDestinations t) : Deinterleaved (s.withChromaFirst .v) t := by
  obtain ⟨hdst0, hdst1, houtside⟩ := h
  simp only [swapDestinations_rows, swapDestinations_cols, swapDestinations_dst0_addr, swapDestinations_dst1_addr,
    isPlaneAddr_swapDestinations, deintByte_swapDestinations] at hdst0 hdst1 houtside
  exact ⟨hdst1, hdst0, houtside⟩

/-- Settles O28: both runs leave what `Deinterleaved` says of the converse plane order. -/
theorem planeOrderIsDestinationSwap : Obligations.PlaneOrderIsDestinationSwap := by
  intro s h
  have hv : Legal (deintBuffers (s.withChromaFirst .v)) (s.withChromaFirst .v) := h
  have hu : Legal _ (s.withChromaFirst .u).swapDestinations := legal_swapDestinations (s := s.withChromaFirst .u) h
  exact ⟨_, _, exec_deint_of_legal hv, exec_deint_of_legal hu, rfl, rfl,
    (deinterleaved_deint hv).byte_eq (deinterleaved_deint hu).of_swapDestinations⟩

/-! ### The pseudocode's loop -/

theorem writeBytes_singleton_byte (s : State) (a : Nat) (b : Byte) (k : Nat) :
    (s.writeBytes a [b]).byte k = if k = a then b else s.byte k := by
  split
  · next h =>
    subst h
    exact writeBytes_byte_of_mem s k [b] 0 Nat.zero_lt_one
  · exact writeBytes_byte_of_not_mem s a [b] k (by rw [List.length_singleton]; omega)

/-- One pair of the loop (R121). -/
theorem deintPair_eq (t : State) (r c : Nat) : deintPair t r c =
    (t.writeBytes ((t.dst0 t.cols).addr r c) [deintByte t .u r c]).writeBytes ((t.dst1 t.cols).addr r c)
      [deintByte t .v r c] := by
  rw [deintByte_u, deintByte_v, deintPair]
  by_cases h : t.cfg.chromaFirst = .u
  · simp only [if_pos h]
    rfl
  · simp only [if_neg h]
    rfl

/-- What the loop has done so far: it has written memory alone, no source byte among it, and at the addresses `W` it has
left the bytes of `u`, a state with the planes (R121). -/
structure LoopProgress (s u : State) (W : Nat → Prop) (t : State) : Prop where
  memoryOnly : ∃ m, t = s.setMem m
  outside : ∀ k, (∀ r < s.rows, ∀ c < s.cols, ¬IsPlaneAddr s r c k) → t.byte k = s.byte k
  written : ∀ k, W k → t.byte k = u.byte k

/-- No byte of the source is a byte of a plane (20_memory.md R71). -/
theorem src0_addr_not_isPlaneAddr {s : State} (h : Legal (deintBuffers s) s) {r j : Nat} (hr : r < s.rows)
    (hj : j < 2 * s.cols) : ∀ r' < s.rows, ∀ c' < s.cols,
      ¬IsPlaneAddr s r' c' ((s.src0 (2 * s.cols)).addr r j) := by
  rintro r' hr' c' hc' (hk | hk)
  · exact legal_addr_ne _ s h (s.dst0 s.cols) (s.src0 (2 * s.cols)) (by simp [deintBuffers]) rfl (by simp [deintBuffers])
      (by simp [State.src0, State.dst0]) r' c' hr' hc' r j hr hj hk.symm
  · exact legal_addr_ne _ s h (s.dst1 s.cols) (s.src0 (2 * s.cols)) (by simp [deintBuffers]) rfl (by simp [deintBuffers])
      (by simp [State.src0, State.dst1]) r' c' hr' hc' r j hr hj hk.symm

section
variable {s u t : State} {W : Nat → Prop}

/-- The loop reads the source as it was before the command (20_memory.md R77). -/
theorem LoopProgress.srcByte (h : Legal (deintBuffers s) s) (ht : LoopProgress s u W t) {r j : Nat} (hr : r < s.rows)
    (hj : j < 2 * s.cols) : t.srcByte r j = s.srcByte r j := by
  obtain ⟨⟨m, rfl⟩, houtside, -⟩ := ht
  exact houtside _ (src0_addr_not_isPlaneAddr h hr hj)

theorem LoopProgress.deintByte (h : Legal (deintBuffers s) s) (ht : LoopProgress s u W t) {r c : Nat} (hr : r < s.rows)
    (hc : c < s.cols) (p : Plane) : deintByte t p r c = deintByte s p r c := by
  have hcfg : t.cfg = s.cfg := by
    obtain ⟨⟨m, rfl⟩, -⟩ := ht
    rfl
  rw [Machine.deintByte, Machine.deintByte, hcfg, ht.srcByte h hr (by omega), ht.srcByte h hr (by omega)]

/-- One pair of the loop writes the bytes of `u` at its two addresses, whether or not they are one. -/
theorem LoopProgress.deintPair_byte (h : Legal (deintBuffers s) s) (hu : Deinterleaved s u) (ht : LoopProgress s u W t)
    {r c : Nat} (hr : r < s.rows) (hc : c < s.cols) (k : Nat) : (deintPair t r c).byte k =
      if k = (s.dst1 s.cols).addr r c then u.byte k else if k = (s.dst0 s.cols).addr r c then u.byte k else t.byte k := by
  have hbyte := ht.deintByte h hr hc
  obtain ⟨⟨m, rfl⟩, -⟩ := ht
  rw [deintPair_eq, writeBytes_singleton_byte, writeBytes_singleton_byte, hbyte, hbyte, ← hu.dst0 r hr c hc,
    ← hu.dst1 r hr c hc]
  refine ite_congr rfl (fun hk => by rw [hk]) fun _ => ite_congr rfl (fun hk => by rw [hk]) fun _ => rfl

theorem LoopProgress.mono {W' : Nat → Prop} (ht : LoopProgress s u W t) (hW : ∀ k, W' k → W k) :
    LoopProgress s u W' t :=
  ⟨ht.memoryOnly, ht.outside, fun k hk => ht.written k (hW k hk)⟩

theorem LoopProgress.deintPair (h : Legal (deintBuffers s) s) (hu : Deinterleaved s u) (ht : LoopProgress s u W t)
    {r c : Nat} (hr : r < s.rows) (hc : c < s.cols) :
    LoopProgress s u (fun k => W k ∨ IsPlaneAddr s r c k) (deintPair t r c) where
  memoryOnly := by
    obtain ⟨⟨m, rfl⟩, -⟩ := ht
    exact ⟨_, deintPair_eq _ r c⟩
  outside k hk := by
    obtain ⟨hdst0, hdst1⟩ := not_or.1 (hk r hr c hc)
    rw [ht.deintPair_byte h hu hr hc, if_neg hdst1, if_neg hdst0, ht.outside k hk]
  written k hk := by
    rw [ht.deintPair_byte h hu hr hc]
    split
    · rfl
    · next hdst1 =>
      split
      · rfl
      · next hdst0 => exact ht.written k (hk.resolve_right (not_or.2 ⟨hdst0, hdst1⟩))

/-- A loop whose pass `i` makes progress at the addresses `A i`. -/
theorem LoopProgress.foldl_range {f : State → Nat → State} {A : Nat → Nat → Prop} (n : Nat)
    (hpass : ∀ i < n, ∀ (W : Nat → Prop) (t : State), LoopProgress s u W t →
      LoopProgress s u (fun k => W k ∨ A i k) (f t i))
    (ht : LoopProgress s u W t) :
    LoopProgress s u (fun k => W k ∨ ∃ i < n, A i k) ((List.range n).foldl f t) := by
  induction n with
  | zero => exact ht.mono fun k hk => hk.resolve_right (by simp)
  | succ n ih =>
    rw [List.range_succ, List.foldl_append]
    refine (hpass n n.lt_succ_self _ _ (ih fun i hi => hpass i (by omega))).mono fun k hk => ?_
    simpa only [Nat.exists_lt_succ_right, ← or_assoc] using hk

theorem LoopProgress.deintRow (h : Legal (deintBuffers s) s) (hu : Deinterleaved s u) (ht : LoopProgress s u W t)
    {r : Nat} (hr : r < s.rows) :
    LoopProgress s u (fun k => W k ∨ ∃ c < s.cols, IsPlaneAddr s r c k) (deintRow t r) := by
  have hcols : t.cols = s.cols := by
    obtain ⟨⟨m, rfl⟩, -⟩ := ht
    rfl
  rw [Machine.deintRow, hcols]
  exact ht.foldl_range s.cols fun c hc _ _ ht' => ht'.deintPair h hu hr hc

theorem loopProgress_deintLoop (h : Legal (deintBuffers s) s) (hu : Deinterleaved s u) :
    LoopProgress s u (fun k => ∃ r < s.rows, ∃ c < s.cols, IsPlaneAddr s r c k) (deintLoop s) := by
  have hstart : LoopProgress s u (fun _ => False) s := ⟨⟨s.mem, rfl⟩, fun _ _ => rfl, fun _ => False.elim⟩
  exact (hstart.foldl_range s.rows fun r hr _ _ ht => ht.deintRow h hu hr).mono fun _ => Or.inr

/-- The loop leaves the planes, and every other byte (R121). -/
theorem deinterleaved_deintLoop (h : Legal (deintBuffers s) s) : Deinterleaved s (deintLoop s) := by
  have hu := deinterleaved_deint h
  obtain ⟨-, houtside, hwritten⟩ := loopProgress_deintLoop h hu
  exact ⟨fun r hr c hc => (hwritten _ ⟨r, hr, c, hc, .inl rfl⟩).trans (hu.dst0 r hr c hc),
    fun r hr c hc => (hwritten _ ⟨r, hr, c, hc, .inr rfl⟩).trans (hu.dst1 r hr c hc), houtside⟩

end

/-- Settles O29: command and loop both leave what `Deinterleaved` says; the loop because it reads the source as it was
(`LoopProgress.srcByte`). -/
theorem deintLoopOrderUnobservable : Obligations.DeintLoopOrderUnobservable :=
  fun _ h => ⟨_, exec_deint_of_legal h, (deinterleaved_deint h).byte_eq (deinterleaved_deintLoop h)⟩

end Sys2Proof.Machine
end

section
/-! The `INTEG` family: the errors of the command, the table of prefix sums that it leaves, the four-corner lookup in that
table, and the overflow rule (41_integ.md). -/

namespace Sys2Proof.Machine

/-! ### The errors in their order -/

/-- The operand tests of `INTEG` in the order of 41_integ.md R148. -/
theorem validateWith_integBuffers (s : State) : validateWith integBuffers s =
    if 16384 < s.rows then some ⟨.geom, 9⟩
    else if 16384 < s.cols then some ⟨.geom, 10⟩
    else if s.src0Stride < s.cols then some ⟨.stride, 1⟩
    else if s.tabBase % 4 ≠ 0 then some ⟨.align, 8⟩
    else if beyondMemory s.cfg.memSize s.src0Base (s.src0 s.cols).extent then some ⟨.bus, 0⟩
    else if beyondMemory s.cfg.memSize s.tabBase (s.tab .output).extent then some ⟨.bus, 8⟩
    else if regionsMeet s.tabBase (s.tab .output).extent s.src0Base (s.src0 s.cols).extent then some ⟨.overlap, 8⟩
    else none := by
  have halign (x : Option Rejection) : (checkAlign (integBuffers s)).or x =
      if s.tabBase % 4 ≠ 0 then some ⟨.align, 8⟩ else x := by
    simp [integBuffers, checkAlign_cons_or, checkAlign_nil_or, State.src0, State.tab, BufferName.baseReg]
  rw [validateWith, halign, checkGeometry_or]
  simp only [integBuffers, checkStrides_cons_or, checkStrides_nil_or, checkBus_cons_or, checkBus_nil_or,
    checkOverlap_two (s.src0 s.cols) (s.tab .output) rfl rfl (by simp [State.src0, State.tab])]
  rfl

/-- Settles O23, by the chain of `validateWith_integBuffers`. -/
theorem integErrorsInOrder : Obligations.IntegErrorsInOrder := by
  intro s R C M src tab
  obtain ⟨t, hexec, hleft, hreports⟩ := exec_reports .integ rfl s _ rfl
  refine ⟨t, hexec, hleft, ?_⟩
  rw [show operandTests .integ s = _ from validateWith_integBuffers s, tab_extent] at hreports
  simp only [apply_ite (Option.map _), Option.map_some, Option.map_none] at hreports
  exact hreports

/-! ### The table that `INTEG` leaves -/

/-- The state in which `INTEG` completes on `s`: the table is in memory, `OVF` has noted the total (R142, R146). -/
def integEnd (s : State) : State :=
  s.completed 0x00000002 (integWrites s) (s.status.ovf || decide (pixelSum s 0 s.rows 0 s.cols > 2147483647))

/-- On legal operands `INTEG` completes (R142, 60_exceptions.md R250). -/
theorem exec_integ_of_legal {s : State} (h : Legal (integBuffers s) s) : exec .integ s = .next (integEnd s) := by
  have hend := integCommand_of_legal s h
  rw [imageTotal_eq] at hend
  exact congrArg Host.Outcome.next hend

/-- Entry `(r, c)` of the table that `INTEG` leaves is the sum of the pixels above and to the left (R142). -/
theorem integEnd_word (s : State) {r c : Nat} (hr : r ≤ s.rows) (hc : c ≤ s.cols) :
    (integEnd s).word (s.taddr r c) = BitVec.ofNat 32 (pixelSum s 0 r 0 c) :=
  integWrites_word s (integEnd s) rfl r c hr hc

/-- Settles O30: the entries are `integEnd_word`, the frame is `integWrites_get?_of_outside`. -/
theorem integWritesPrefixSums : Obligations.IntegWritesPrefixSums :=
  fun s h => ⟨integEnd s, exec_integ_of_legal h, rfl, fun _ hr _ hc => integEnd_word s hr hc,
    fun k hk => byte_eq_of_get? s _ k rfl (integWrites_get?_of_outside s k hk)⟩

/-- Settles O31: the lookup is `integWrites_fourCorners`, its reading as `s32` is `toInt_ofNat_of_le`. -/
theorem fourCornersGiveRectangleSum : Obligations.FourCornersGiveRectangleSum := by
  intro s h
  refine ⟨integEnd s, exec_integ_of_legal h, rfl, ?_⟩
  intro r0 r1 c0 c1 hr hr1 hc hc1 T D
  have hsum : D = BitVec.ofNat 32 (pixelSum s r0 r1 c0 c1) :=
    integWrites_fourCorners s (integEnd s) rfl rfl r0 r1 c0 c1 hr hr1 hc hc1
  refine ⟨hsum, fun hle => ?_, ?_⟩
  · rw [hsum, toInt_ofNat_of_le _ hle]
  · rintro rfl rfl
    exact pixelSum_block_le s r0 c0

/-! ### The overflow rule -/

/-- The total is at most 255 for each pixel (R146). -/
theorem pixelSum_total_le (s : State) : pixelSum s 0 s.rows 0 s.cols ≤ 255 * s.rows * s.cols := by
  have h := pixelSum_le s 0 s.rows 0 s.cols
  rw [Nat.sub_zero, Nat.sub_zero] at h
  calc pixelSum s 0 s.rows 0 s.cols ≤ s.rows * (s.cols * 255) := h
    _ = 255 * s.rows * s.cols := by ring

/-- A total that fits `s32` leaves `OVF` (R146). -/
theorem integEnd_ovf_of_le {s : State} (h : pixelSum s 0 s.rows 0 s.cols ≤ 2147483647) :
    (integEnd s).status.ovf = s.status.ovf := by
  simp [integEnd, h]

/-- A total that does not fit `s32` sets `OVF` (R146). -/
theorem integEnd_ovf_of_gt {s : State} (h : pixelSum s 0 s.rows 0 s.cols > 2147483647) :
    (integEnd s).status.ovf = true := by
  simp [integEnd, h]

/-- No entry of a table built without `OVF` is negative: each is at most the total (R147). -/
theorem integEnd_word_toInt {s : State} (hovf : (integEnd s).status.ovf = false) {r c : Nat} (hr : r ≤ s.rows)
    (hc : c ≤ s.cols) : ((integEnd s).word (s.taddr r c)).toInt = (pixelSum s 0 r 0 c : Int) := by
  have htotal : pixelSum s 0 s.rows 0 s.cols ≤ 2147483647 := by
    by_contra hgt
    rw [integEnd_ovf_of_gt (not_le.1 hgt)] at hovf
    cases hovf
  rw [integEnd_word s hr hc, toInt_ofNat_of_le _ ((pixelSum_mono s r s.rows c s.cols hr hc).trans htotal)]

/-- Settles O32: `OVF` notes the total, every entry is at most the total, and `255*8421504 ≤ 2^31-1`. -/
theorem overflowOnlyBeyondTotal : Obligations.OverflowOnlyBeyondTotal := by
  intro s h
  refine ⟨integEnd s, exec_integ_of_legal h, rfl, fun r hr c hc => pixelSum_mono s r _ c _ hr hc, pixelSum_total_le s,
    fun hsmall => integEnd_ovf_of_le ?_, integEnd_ovf_of_gt, integEnd_ovf_of_le,
    fun hovf _ hr _ hc => integEnd_word_toInt hovf hr hc⟩
  calc pixelSum s 0 s.rows 0 s.cols ≤ 255 * s.rows * s.cols := pixelSum_total_le s
    _ = 255 * (s.rows * s.cols) := Nat.mul_assoc _ _ _
    _ ≤ 255 * 8421504 := Nat.mul_le_mul_left _ hsmall
    _ ≤ 2147483647 := by decide

end Sys2Proof.Machine
end

section
/-! The binarizer family: the errors of `ATHR` and `ADAPT`, the image that each leaves, `ADAPT` as `INTEG` followed by
`ATHR`, and the laws of 42_athr.md R175. -/

namespace Sys2Proof.Machine

/-! ### The errors in their order -/

/-- The buffers of `ATHR` and `ADAPT`: one list, but for the direction of the table (20_memory.md R68). -/
def binarizerBuffers (d : Direction) (s : State) : List Buffer := [s.src0 s.cols, s.tab d, s.dst0 s.cols]

theorem athrBuffers_eq : athrBuffers = binarizerBuffers .input := rfl

theorem adaptBuffers_eq : adaptBuffers = binarizerBuffers .output := rfl

/-- The operand tests of `ATHR` and `ADAPT`, up to the overlap test, in the order of R168 and R172. -/
theorem validateWith_binarizerBuffers (d : Direction) (s : State) : validateWith (binarizerBuffers d) s =
    if 16384 < s.rows then some ⟨.geom, 9⟩
    else if 16384 < s.cols then some ⟨.geom, 10⟩
    else if s.src0Stride < s.cols then some ⟨.stride, 1⟩
    else if s.dst0Stride < s.cols then some ⟨.stride, 5⟩
    else if s.tabBase % 4 ≠ 0 then some ⟨.align, 8⟩
    else if beyondMemory s.cfg.memSize s.src0Base (s.src0 s.cols).extent then some ⟨.bus, 0⟩
    else if beyondMemory s.cfg.memSize s.tabBase (s.tab d).extent then some ⟨.bus, 8⟩
    else if beyondMemory s.cfg.memSize s.dst0Base (s.dst0 s.cols).extent then some ⟨.bus, 4⟩
    else checkOverlap (binarizerBuffers d s) := by
  have halign (x : Option Rejection) : (checkAlign (binarizerBuffers d s)).or x =
      if s.tabBase % 4 ≠ 0 then some ⟨.align, 8⟩ else x := by
    simp [binarizerBuffers, checkAlign_cons_or, checkAlign_nil_or, State.src0, State.tab, State.dst0,
      BufferName.baseReg]
  rw [validateWith, halign, checkGeometry_or]
  simp only [binarizerBuffers, checkStrides_cons_or, checkStrides_nil_or, checkBus_cons_or, checkBus_nil_or]
  rfl

/-- The overlap test of the three buffers: the table is tested against the other two where it is an output. -/
theorem checkOverlap_binarizerBuffers (d : Direction) (s : State) : checkOverlap (binarizerBuffers d s) =
    if d = .output ∧ (regionsMeet s.tabBase (s.tab d).extent s.src0Base (s.src0 s.cols).extent ∨
        regionsMeet s.tabBase (s.tab d).extent s.dst0Base (s.dst0 s.cols).extent) then
      some ⟨.overlap, 8⟩
    else if regionsMeet s.dst0Base (s.dst0 s.cols).extent s.src0Base (s.src0 s.cols).extent ∨
        regionsMeet s.dst0Base (s.dst0 s.cols).extent s.tabBase (s.tab d).extent then
      some ⟨.overlap, 4⟩
    else none := by
  rw [binarizerBuffers, checkOverlap_three _ _ _ rfl (by simp [State.src0, State.tab])
    (by simp [State.src0, State.dst0]) (by simp [State.tab, State.dst0])]
  exact ite_congr rfl (fun _ => rfl) fun _ => ite_congr (propext (and_iff_right rfl)) (fun _ => rfl) fun _ => rfl

/-- The overlap test of `ATHR`: its only output is `DST0`, so `TAB` over `SRC0` is no error (R168). -/
theorem checkOverlap_athrBuffers (s : State) : checkOverlap (athrBuffers s) =
    if regionsMeet s.dst0Base (s.dst0 s.cols).extent s.src0Base (s.src0 s.cols).extent ∨
        regionsMeet s.dst0Base (s.dst0 s.cols).extent s.tabBase (s.tab .input).extent then
      some ⟨.overlap, 4⟩
    else none := by
  rw [athrBuffers_eq, checkOverlap_binarizerBuffers, if_neg fun h => nomatch h.1]

/-- The overlap test of `ADAPT`: once `TAB` is clear of both other buffers, `DST0` can only meet `SRC0` (R172). -/
theorem checkOverlap_adaptBuffers (s : State) : checkOverlap (adaptBuffers s) =
    if regionsMeet s.tabBase (s.tab .output).extent s.src0Base (s.src0 s.cols).extent ∨
        regionsMeet s.tabBase (s.tab .output).extent s.dst0Base (s.dst0 s.cols).extent then
      some ⟨.overlap, 8⟩
    else if regionsMeet s.dst0Base (s.dst0 s.cols).extent s.src0Base (s.src0 s.cols).extent then some ⟨.overlap, 4⟩
    else none := by
  rw [adaptBuffers_eq, checkOverlap_binarizerBuffers]
  refine ite_congr (propext (and_iff_right rfl)) (fun _ => rfl) fun htab => ?_
  refine ite_congr (propext (or_iff_left fun hmeet => ?_)) (fun _ => rfl) fun _ => rfl
  exact htab (.inr ((regionsMeet_comm _ _ _ _).1 hmeet))

/-- Settles O24, by the chain of `validateWith_binarizerBuffers`. -/
theorem athrErrorsInOrder : Obligations.AthrErrorsInOrder := by
  intro s R C M src tab dst
  obtain ⟨t, hexec, hleft, hreports⟩ := exec_reports .athr rfl s _ rfl
  refine ⟨t, hexec, fun h => (hleft h).1, ?_⟩
  rw [show operandTests .athr s = _ from validateWith_binarizerBuffers .input s, ← athrBuffers_eq,
    checkOverlap_athrBuffers, tab_extent] at hreports
  simp only [apply_ite (Option.map _), Option.map_some, Option.map_none] at hreports
  exact hreports

/-- Settles O25, by the chain of `validateWith_binarizerBuffers`. -/
theorem adaptErrorsInOrder : Obligations.AdaptErrorsInOrder := by
  intro s R C M src tab dst
  obtain ⟨t, hexec, hleft, hreports⟩ := exec_reports .adapt rfl s _ rfl
  refine ⟨t, hexec, hleft, ?_⟩
  rw [show operandTests .adapt s = _ from validateWith_binarizerBuffers .output s, ← adaptBuffers_eq,
    checkOverlap_adaptBuffers, tab_extent] at hreports
  simp only [apply_ite (Option.map _), Option.map_some, Option.map_none] at hreports
  exact hreports

/-! ### The image that `ATHR` leaves -/

/-- The state in which `ATHR` completes on `s` (R166, 60_exceptions.md R250). -/
def athrEnd (s : State) : State := s.completed 0x00000003 (athrBody s).mem s.status.ovf

theorem exec_athr_of_legal {s : State} (h : Legal (athrBuffers s) s) : exec .athr s = .next (athrEnd s) :=
  congrArg Host.Outcome.next (athrCommand_of_legal s h)

theorem athrEnd_byte {s : State} (h : Legal (athrBuffers s) s) {i j : Nat} (hi : i < s.rows) (hj : j < s.cols) :
    (athrEnd s).byte (s.dst0Base + i * s.dst0Stride + j) = athrByte s i j :=
  athrBody_byte s _ (legal_stride _ s h (s.dst0 s.cols) (by simp [athrBuffers]) (by simp [State.dst0])) rfl i j hi hj

/-- Every byte but the output's is as before (20_memory.md R72). -/
theorem athrEnd_byte_of_ne (s : State) {k : Nat}
    (h : ∀ i < s.rows, ∀ j < s.cols, k ≠ s.dst0Base + i * s.dst0Stride + j) : (athrEnd s).byte k = s.byte k :=
  byte_eq_of_get? s _ k rfl (athrBody_get?_of_ne s k h)

/-- A pixel that the interior leaves out (R161, R162). -/
abbrev InBand (s : State) (i j : Nat) : Prop := i < 7 ∨ s.rows ≤ i + 8 ∨ j < 7 ∨ s.cols ≤ j + 8

theorem InBand.not_inInterior {s : State} {i j : Nat} (h : InBand s i j) : ¬inInterior s.rows s.cols i j = true := by
  rw [inInterior_iff]
  omega

theorem athrByte_of_band {s : State} {i j : Nat} (h : InBand s i j) : athrByte s i j = s.srcByte i j :=
  if_neg h.not_inInterior

/-- Settles O33: the image is `athrEnd_byte`, the frame is `athrEnd_byte_of_ne`. -/
theorem athrBinarizesInterior : Obligations.AthrBinarizesInterior := by
  intro s h
  refine ⟨athrEnd s, exec_athr_of_legal h, rfl, fun i hi j hj => ?_, fun k hk => athrEnd_byte_of_ne s hk⟩
  refine (athrEnd_byte h hi hj).trans (ite_congr (propext ?_) (fun _ => rfl) fun _ => rfl)
  rw [inInterior_iff, State.rows, State.cols]
  omega

/-! ### The image that `ADAPT` leaves -/

/-- The state in which `ADAPT` completes on `s`: table and image are in memory, `OVF` has noted the total (R170). -/
def adaptEnd (s : State) : State :=
  s.completed 0x00000004 (athrBody (s.setMem (integWrites s))).mem
    (s.status.ovf || decide (pixelSum s 0 s.rows 0 s.cols > 2147483647))

theorem exec_adapt_of_legal {s : State} (h : Legal (adaptBuffers s) s) : exec .adapt s = .next (adaptEnd s) := by
  have hend := adaptCommand_of_legal s h
  rw [imageTotal_eq] at hend
  exact congrArg Host.Outcome.next hend

/-- The output byte of `ADAPT` by the exact sum of the block (R163 to R165) and, on the band, the source byte (R162). -/
def idealByte (s : State) (i j : Nat) : Byte :=
  if 7 ≤ i ∧ i + 8 < s.rows ∧ 7 ≤ j ∧ j + 8 < s.cols then
    if ((s.srcByte i j).toNat : Int) < ((pixelSum s (i - 7) (i + 8) (j - 7) (j + 8) / 225 : Nat) : Int) - s.delta then 0
    else 255
  else s.srcByte i j

theorem idealByte_of_band {s : State} {i j : Nat} (h : InBand s i j) : idealByte s i j = s.srcByte i j :=
  if_neg (by omega)

/-- On the table of phase 1 the block mean is exact: a block's sum is at most `225*255` (R163, R164). -/
theorem blockMean_after_integ (s : State) {i j : Nat} (hi7 : 7 ≤ i) (hi : i + 8 < s.rows) (hj7 : 7 ≤ j)
    (hj : j + 8 < s.cols) : blockMean (s.setMem (integWrites s)) i j =
      ((pixelSum s (i - 7) (i + 8) (j - 7) (j + 8) / 225 : Nat) : Int) := by
  have hsum : pixelSum s (i - 7) (i + 8) (j - 7) (j + 8) ≤ 57375 := by
    have hblock := pixelSum_block_le s (i - 7) (j - 7)
    rwa [show i - 7 + 15 = i + 8 by omega, show j - 7 + 15 = j + 8 by omega] at hblock
  have hcorners := integWrites_fourCorners s (s.setMem (integWrites s)) rfl rfl (i - 7) (i + 8) (j - 7) (j + 8)
    (by omega) (by omega) (by omega) (by omega)
  calc blockMean (s.setMem (integWrites s)) i j
      = ((s.setMem (integWrites s)).fourCorners (i - 7) (i + 8) (j - 7) (j + 8)).toInt.tdiv 225 := rfl
    _ = (pixelSum s (i - 7) (i + 8) (j - 7) (j + 8) : Int).tdiv 225 := by
      rw [hcorners, toInt_ofNat_of_le _ (hsum.trans (by decide))]
    _ = _ := (Int.ofNat_tdiv _ _).symm

/-- Phase 2 reads the source as it was before phase 1 (R170, R171). -/
theorem athrByte_after_integ {s : State} (h : Legal (integBuffers s) s) {i j : Nat} (hi : i < s.rows)
    (hj : j < s.cols) : athrByte (s.setMem (integWrites s)) i j = idealByte s i j := by
  have hsrc : (s.setMem (integWrites s)).srcByte i j = s.srcByte i j :=
    srcByte_after_integ s (s.setMem (integWrites s)) h rfl rfl i j hi hj
  rw [athrByte, hsrc]
  refine ite_congr (propext (inInterior_iff _ _ _ _)) (fun hin => ?_) fun _ => rfl
  obtain ⟨hi7, hi8, hj7, hj8⟩ := hin
  rw [blockMean_after_integ s hi7 hi8 hj7 hj8, State.setMem_delta]

theorem adaptEnd_byte {s : State} (h : Legal (adaptBuffers s) s) {i j : Nat} (hi : i < s.rows) (hj : j < s.cols) :
    (adaptEnd s).byte (s.dst0Base + i * s.dst0Stride + j) = idealByte s i j := by
  have hstride : s.cols ≤ s.dst0Stride :=
    legal_stride _ s h (s.dst0 s.cols) (by simp [adaptBuffers]) (by simp [State.dst0])
  exact (athrBody_byte (s.setMem (integWrites s)) (adaptEnd s) hstride rfl i j hi hj).trans
    (athrByte_after_integ (legal_integ_of_adapt s h) hi hj)

/-- No output pixel of `ADAPT` lies in the table (20_memory.md R71). -/
theorem dst0_addr_outside_tab {s : State} (h : Legal (adaptBuffers s) s) {i j : Nat} (hi : i < s.rows)
    (hj : j < s.cols) : (s.dst0 s.cols).addr i j < s.tabBase ∨
      s.tabBase + 4 * ((s.rows + 1) * (s.cols + 1)) ≤ (s.dst0 s.cols).addr i j := by
  obtain ⟨-, -, -, hoverlap⟩ := h
  have hclear := hoverlap (s.tab .output) (by simp [adaptBuffers]) rfl (s.dst0 s.cols) (by simp [adaptBuffers])
    (by simp [State.tab, State.dst0])
  have hlt := addr_lt_of_inMemory (s.dst0 s.cols) _ (fun _ => le_rfl) i j hi hj
  have hle : (s.dst0 s.cols).base ≤ (s.dst0 s.cols).addr i j := by
    unfold Buffer.addr
    omega
  rw [tab_extent, show (s.tab .output).base = s.tabBase from rfl] at hclear
  have hpos : 0 < 4 * ((s.rows + 1) * (s.cols + 1)) := by positivity
  by_contra hin
  exact hclear ⟨hpos, by omega, by omega, by omega⟩

/-- Phase 2 leaves the table of phase 1 (R171). -/
theorem adaptEnd_word {s : State} (h : Legal (adaptBuffers s) s) {r c : Nat} (hr : r ≤ s.rows) (hc : c ≤ s.cols) :
    (adaptEnd s).word (s.taddr r c) = BitVec.ofNat 32 (pixelSum s 0 r 0 c) := by
  refine (word_eq_of_outside s (adaptEnd s) (integEnd s) r c hr hc fun k hlo hhi => ?_).trans (integEnd_word s hr hc)
  refine byte_eq_of_get? (integEnd s) (adaptEnd s) k rfl
    (athrBody_get?_of_ne (s.setMem (integWrites s)) k fun i hi j hj hk => ?_)
  have hout : k < s.tabBase ∨ s.tabBase + 4 * ((s.rows + 1) * (s.cols + 1)) ≤ k :=
    hk ▸ dst0_addr_outside_tab h hi hj
  omega

/-- Every byte but the table's and the output's is as before (20_memory.md R72). -/
theorem adaptEnd_byte_of_outside (s : State) {k : Nat}
    (htab : k < s.tabBase ∨ s.tabBase + 4 * ((s.rows + 1) * (s.cols + 1)) ≤ k)
    (hdst : ∀ i < s.rows, ∀ j < s.cols, k ≠ s.dst0Base + i * s.dst0Stride + j) : (adaptEnd s).byte k = s.byte k :=
  byte_eq_of_get? s _ k rfl
    ((athrBody_get?_of_ne (s.setMem (integWrites s)) k hdst).trans (integWrites_get?_of_outside s k htab))

/-- Settles O35: the image is `adaptEnd_byte`, the table `adaptEnd_word`, the frame `adaptEnd_byte_of_outside`. -/
theorem adaptIsIdealThreshold : Obligations.AdaptIsIdealThreshold :=
  fun s h => ⟨adaptEnd s, exec_adapt_of_legal h, rfl, fun _ hi _ hj => adaptEnd_byte h hi hj,
    fun _ hr _ hc => adaptEnd_word h hr hc, fun _ htab hdst => adaptEnd_byte_of_outside s htab hdst⟩

/-- Settles O34: on the band both images hold the source byte (`athrByte_of_band`, `idealByte_of_band`). -/
theorem borderBandIsCopied : Obligations.BorderBandIsCopied := by
  intro s i j hi hj hnum
  have hband : InBand s i j := hnum.imp Nat.lt_succ_of_le (Or.imp_right (Or.imp_left Nat.lt_succ_of_le))
  exact ⟨fun h => ⟨athrEnd s, exec_athr_of_legal h, (athrEnd_byte h hi hj).trans (athrByte_of_band hband)⟩,
    fun h => ⟨adaptEnd s, exec_adapt_of_legal h, (adaptEnd_byte h hi hj).trans (idealByte_of_band hband)⟩⟩

/-! ### `ADAPT` is `INTEG` followed by `ATHR` -/

/-- `INTEG` and then `ATHR` end as `ADAPT` does, but for `CMD` (R173). -/
theorem athrEnd_integEnd (s : State) : athrEnd (integEnd s) = { adaptEnd s with cmd := 0x00000003 } := rfl

/-- A command with operands, `NOP` having none, is rejected where they are not legal (60_exceptions.md R250). -/
theorem exec_rejected_of_not_legal {i : Instr} {s : State} (hc : isCommand i = true) (hi : i ≠ .nop)
    (h : ¬Legal (buffersOf i s) s) : ∃ e info, exec i s = .next (s.rejected (commandWord i) e info) := by
  obtain ⟨r, hr⟩ := Option.ne_none_iff_exists'.1 fun hnone => h (legal_of_operandTests hi hnone)
  exact ⟨r.error, r.info, (exec_command i s hc).trans (congrArg Host.Outcome.next (commandEnd_of_rejection hr))⟩

/-- The tests of `ATHR` read only registers and parameters, which `INTEG` leaves (R173, 60_exceptions.md R250). -/
theorem legal_athr_integEnd (s : State) :
    Legal (athrBuffers (integEnd s)) (integEnd s) ↔ Legal (athrBuffers s) s := Iff.rfl

/-- Settles O36, by which of the two commands have legal operands: `ADAPT` has exactly when both have
(`legal_adapt_iff`). -/
theorem adaptEqualsIntegThenAthr : Obligations.AdaptEqualsIntegThenAthr := by
  intro s
  by_cases hinteg : Legal (integBuffers s) s
  · have hu := exec_integ_of_legal hinteg
    by_cases hathr : Legal (athrBuffers s) s
    · have ht := exec_adapt_of_legal ((legal_adapt_iff s).2 ⟨hinteg, hathr⟩)
      have hv := exec_athr_of_legal ((legal_athr_integEnd s).2 hathr)
      exact ⟨_, _, _, ht, hu, hv, by simp [adaptEnd, integEnd, athrEnd], by simp [athrEnd_integEnd],
        by simp [athrEnd]⟩
    · obtain ⟨_, _, ht⟩ := exec_rejected_of_not_legal (i := .adapt) (s := s) rfl (by decide) fun h =>
        hathr ((legal_adapt_iff s).1 h).2
      obtain ⟨_, _, hv⟩ := exec_rejected_of_not_legal (i := .athr) (s := integEnd s) rfl (by decide) hathr
      exact ⟨_, _, _, ht, hu, hv, by simp, by simp, by simp⟩
  · obtain ⟨_, _, ht⟩ := exec_rejected_of_not_legal (i := .adapt) (s := s) rfl (by decide) fun h =>
      hinteg ((legal_adapt_iff s).1 h).1
    obtain ⟨_, _, hu⟩ := exec_rejected_of_not_legal (i := .integ) rfl (by decide) hinteg
    exact ⟨_, _, _, ht, hu, exec_command .athr _ rfl, by simp, by simp, by simp⟩

/-! ### A uniform image -/

/-- A rectangle of pixels of one value (41_integ.md R142). -/
theorem pixelSum_of_uniform {s : State} {v : Byte} {r0 r1 c0 c1 : Nat}
    (h : ∀ r < r1, ∀ c < c1, s.srcByte r c = v) : pixelSum s r0 r1 c0 c1 = (r1 - r0) * ((c1 - c0) * v.toNat) := by
  have hpixel : ∀ r ∈ Finset.Ico r0 r1, ∀ c ∈ Finset.Ico c0 c1, (s.srcByte r c).toNat = v.toNat :=
    fun r hr c hc => congrArg BitVec.toNat (h r (Finset.mem_Ico.1 hr).2 c (Finset.mem_Ico.1 hc).2)
  rw [pixelSum, Finset.sum_congr rfl fun r hr => Finset.sum_congr rfl (hpixel r hr)]
  simp

/-- Every block mean of a uniform image is its pixel (R175 a). -/
theorem blockAverage_of_uniform {s : State} {v : Byte} {i j : Nat} (hi7 : 7 ≤ i) (hj7 : 7 ≤ j)
    (h : ∀ r < i + 8, ∀ c < j + 8, s.srcByte r c = v) :
    pixelSum s (i - 7) (i + 8) (j - 7) (j + 8) / 225 = v.toNat := by
  rw [pixelSum_of_uniform h, show i + 8 - (i - 7) = 15 by omega, show j + 8 - (j - 7) = 15 by omega]
  omega

/-- Settles O37: the block mean is the pixel itself, which less a `DELTA` of at least 0 is not above it. -/
theorem uniformImageBinarizesTo255 : Obligations.UniformImageBinarizesTo255 := by
  intro s v h hdelta huniform
  refine ⟨adaptEnd s, exec_adapt_of_legal h, fun i hi j hj => (adaptEnd_byte h hi hj).trans ?_⟩
  have hsrc : s.srcByte i j = v := huniform i hi j hj
  rw [idealByte, hsrc]
  refine ite_congr rfl (fun hin => if_neg ?_) fun _ => rfl
  obtain ⟨hi7, hi8, hj7, hj8⟩ := hin
  have hmean := blockAverage_of_uniform (s := s) (v := v) hi7 hj7 fun r hr c hc =>
    huniform r (hr.trans hi8) c (hc.trans hj8)
  rw [hmean, State.delta]
  omega

/-! ### `DELTA` -/

/-- The tests of `ATHR` do not read `DELTA` (R168). -/
theorem legal_athr_setDelta {s : State} (d : Word) (h : Legal (athrBuffers s) s) :
    Legal (athrBuffers (s.setReg 11 d)) (s.setReg 11 d) := by
  have hbufs : athrBuffers (s.setReg 11 d) = athrBuffers s := by
    simp [athrBuffers, State.src0, State.tab, State.dst0, setReg_src0Base, setReg_src0Stride, setReg_tabBase,
      setReg_dst0Base, setReg_dst0Stride, setReg_rows, setReg_cols]
  rw [← validateWith_eq_none_iff] at h ⊢
  exact (validateWith_congr hbufs (setReg_rows (by decide)) (setReg_cols (by decide)) rfl).trans h

theorem setReg_delta_self (s : State) (d : Word) : (s.setReg 11 d).delta = d.toInt :=
  congrArg BitVec.toInt (s.setReg_x_self 11 d)

/-- The output byte under another `DELTA`: the pixels and the block means are the same. -/
theorem athrByte_setDelta (s : State) (d : Word) (i j : Nat) : athrByte (s.setReg 11 d) i j =
    if inInterior s.rows s.cols i j then
      if ((s.srcByte i j).toNat : Int) < blockMean s i j - d.toInt then 0x00 else 0xFF
    else s.srcByte i j := by
  rw [athrByte, setReg_srcByte (by decide) (by decide), setReg_blockMean (by decide) (by decide),
    setReg_rows (by decide), setReg_cols (by decide), setReg_delta_self]

/-- A pixel that is not below the threshold is not below a lower one (R175 b). -/
theorem athrByte_setDelta_eq_255 {s : State} {d : Word} (hd : s.delta ≤ d.toInt) {i j : Nat}
    (h : athrByte s i j = 255) : athrByte (s.setReg 11 d) i j = 255 := by
  rw [athrByte_setDelta]
  rw [athrByte] at h
  by_cases hin : inInterior s.rows s.cols i j
  · rw [if_pos hin] at h ⊢
    have hge : ¬((s.srcByte i j).toNat : Int) < blockMean s i j - s.delta := fun hlt => by
      rw [if_pos hlt] at h
      cases h
    exact if_neg (by omega)
  · rw [if_neg hin] at h ⊢
    exact h

theorem athrByte_setDelta_of_band {s : State} {i j : Nat} (h : InBand s i j) (d : Word) :
    athrByte (s.setReg 11 d) i j = athrByte s i j := by
  rw [athrByte_of_band h, athrByte_setDelta, if_neg h.not_inInterior]

theorem athrEnd_setDelta_byte {s : State} {d : Word} (h : Legal (athrBuffers s) s) {i j : Nat} (hi : i < s.rows)
    (hj : j < s.cols) :
    (athrEnd (s.setReg 11 d)).byte (s.dst0Base + i * s.dst0Stride + j) = athrByte (s.setReg 11 d) i j := by
  have hbyte := athrEnd_byte (legal_athr_setDelta d h) (i := i) (j := j)
  rw [setReg_rows (by decide), setReg_cols (by decide), setReg_dst0Base (by decide), setReg_dst0Stride (by decide)]
    at hbyte
  exact hbyte hi hj

/-- Settles O38: the threshold falls as `DELTA` rises (`athrByte_setDelta_eq_255`), and the band holds the source bytes,
which are the same (`athrByte_setDelta_of_band`). -/
theorem athrMonotoneInDelta : Obligations.AthrMonotoneInDelta := by
  intro s d h hd
  refine ⟨_, _, exec_athr_of_legal h, exec_athr_of_legal (legal_athr_setDelta d h), fun i hi j hj => ?_⟩
  have ht := athrEnd_byte h hi hj
  have hu := athrEnd_setDelta_byte (d := d) h hi hj
  exact ⟨fun h255 => hu.trans (athrByte_setDelta_eq_255 hd (ht.symm.trans h255)),
    fun hband => hu.trans ((athrByte_setDelta_of_band hband d).trans ht.symm)⟩

end Sys2Proof.Machine
end

section
/-! The `RANGE` family: the errors of the command, the mask that it leaves, and the laws of 43_range.md R193, R195 and
R198. -/

namespace Sys2Proof.Machine

/-! ### The errors in their order -/

/-- The overlap test of `RANGE`: its only output is `DST0`, so the two planes may meet (R196). -/
theorem checkOverlap_rangeBuffers (s : State) : checkOverlap (rangeBuffers s) =
    if regionsMeet s.dst0Base (s.dst0 s.cols).extent s.src0Base (s.src0 s.cols).extent ∨
        regionsMeet s.dst0Base (s.dst0 s.cols).extent s.src1Base (s.src1 s.cols).extent then
      some ⟨.overlap, 4⟩
    else none := by
  have hsrc1 : (s.src1 s.cols).dir ≠ .output := nofun
  rw [rangeBuffers, checkOverlap_three _ _ _ rfl (by simp [State.src0, State.src1]) (by simp [State.src0, State.dst0])
    (by simp [State.src1, State.dst0]), if_neg fun h => hsrc1 h.1]
  exact ite_congr (propext (and_iff_right rfl)) (fun _ => rfl) fun _ => rfl

/-- The operand tests of `RANGE`, up to the overlap test, in the order of 43_range.md R196. -/
theorem validateWith_rangeBuffers (s : State) : validateWith rangeBuffers s =
    if 16384 < s.rows then some ⟨.geom, 9⟩
    else if 16384 < s.cols then some ⟨.geom, 10⟩
    else if s.src0Stride < s.cols then some ⟨.stride, 1⟩
    else if s.src1Stride < s.cols then some ⟨.stride, 3⟩
    else if s.dst0Stride < s.cols then some ⟨.stride, 5⟩
    else if beyondMemory s.cfg.memSize s.src0Base (s.src0 s.cols).extent then some ⟨.bus, 0⟩
    else if beyondMemory s.cfg.memSize s.src1Base (s.src1 s.cols).extent then some ⟨.bus, 2⟩
    else if beyondMemory s.cfg.memSize s.dst0Base (s.dst0 s.cols).extent then some ⟨.bus, 4⟩
    else checkOverlap (rangeBuffers s) := by
  have halign (x : Option Rejection) : (checkAlign (rangeBuffers s)).or x = x := by
    simp [rangeBuffers, checkAlign_cons_or, checkAlign_nil_or, State.src0, State.src1, State.dst0]
  rw [validateWith, halign, checkGeometry_or]
  simp only [rangeBuffers, checkStrides_cons_or, checkStrides_nil_or, checkBus_cons_or, checkBus_nil_or]
  rfl

/-- Settles O26, by the chain of `validateWith_rangeBuffers`. -/
theorem rangeErrorsInOrder : Obligations.RangeErrorsInOrder := by
  intro s R C M src0 src1 dst
  obtain ⟨t, hexec, hleft, hreports⟩ := exec_reports .range rfl s _ rfl
  refine ⟨t, hexec, fun h => (hleft h).1, ?_⟩
  rw [show operandTests .range s = _ from validateWith_rangeBuffers s, checkOverlap_rangeBuffers] at hreports
  simp only [apply_ite (Option.map _), Option.map_some, Option.map_none] at hreports
  exact hreports

/-! ### The mask that `RANGE` leaves -/

/-- The state in which `RANGE` completes on `s` (R191, 60_exceptions.md R250). -/
def rangeEnd (s : State) : State := s.completed 0x00000005 (rangeBody s).mem s.status.ovf

theorem exec_range_of_legal {s : State} (h : Legal (rangeBuffers s) s) : exec .range s = .next (rangeEnd s) :=
  congrArg Host.Outcome.next (rangeCommand_of_legal s h)

theorem rangeEnd_byte {s : State} (h : Legal (rangeBuffers s) s) {r c : Nat} (hr : r < s.rows) (hc : c < s.cols) :
    (rangeEnd s).byte (s.dst0Base + r * s.dst0Stride + c) = rangeByte s r c :=
  rangeBody_byte s _ (legal_stride _ s h (s.dst0 s.cols) (by simp [rangeBuffers]) (by simp [State.dst0])) rfl r c hr hc

/-- Every byte but the mask's is as before (20_memory.md R72). -/
theorem rangeEnd_byte_of_ne (s : State) {k : Nat}
    (h : ∀ r < s.rows, ∀ c < s.cols, k ≠ s.dst0Base + r * s.dst0Stride + c) : (rangeEnd s).byte k = s.byte k :=
  byte_eq_of_get? s _ k rfl (rangeBody_get?_of_ne s k h)

/-- Settles O39: the mask is `rangeEnd_byte` with `rangeByte_eq`, the frame is `rangeEnd_byte_of_ne`. -/
theorem rangeMasksIntervals : Obligations.RangeMasksIntervals := fun s h =>
  ⟨rangeEnd s, exec_range_of_legal h, rfl, fun r hr c hc => (rangeEnd_byte h hr hc).trans (rangeByte_eq s r c),
    fun _ hk => rangeEnd_byte_of_ne s hk⟩

/-! ### The two values of a mask byte -/

/-- Both bytes of element `(r, c)` lie in the closed intervals of their channels (R191). -/
abbrev InIntervals (s : State) (r c : Nat) : Prop :=
  s.lowU ≤ ((s.srcByte r c).toNat : Int) ∧ ((s.srcByte r c).toNat : Int) ≤ s.highU ∧
    s.lowV ≤ ((s.src1Byte r c).toNat : Int) ∧ ((s.src1Byte r c).toNat : Int) ≤ s.highV

theorem rangeByte_of_inIntervals {s : State} {r c : Nat} (h : InIntervals s r c) : rangeByte s r c = 0xFF :=
  (rangeByte_eq s r c).trans (if_pos h)

theorem rangeByte_of_not_inIntervals {s : State} {r c : Nat} (h : ¬InIntervals s r c) : rangeByte s r c = 0x00 :=
  (rangeByte_eq s r c).trans (if_neg h)

theorem inIntervals_of_rangeByte {s : State} {r c : Nat} (h : rangeByte s r c = 0xFF) : InIntervals s r c := by
  by_contra hn
  rw [rangeByte_of_not_inIntervals hn] at h
  cases h

theorem rangeByte_binary (s : State) (r c : Nat) : rangeByte s r c = 0x00 ∨ rangeByte s r c = 0xFF := by
  by_cases h : InIntervals s r c
  · exact .inr (rangeByte_of_inIntervals h)
  · exact .inl (rangeByte_of_not_inIntervals h)

/-- No byte lies in an interval whose lower bound is above its upper bound (R193). -/
theorem not_inIntervals_of_reversed {s : State} (h : s.lowU > s.highU ∨ s.lowV > s.highV) (r c : Nat) :
    ¬InIntervals s r c := by
  rintro ⟨hlowU, hhighU, hlowV, hhighV⟩
  omega

/-- Settles O40: with reversed bounds no element is in both intervals (`not_inIntervals_of_reversed`). -/
theorem reversedBoundsGiveZeroMask : Obligations.ReversedBoundsGiveZeroMask := fun s h hrev =>
  ⟨rangeEnd s, exec_range_of_legal h, rfl, fun r hr c hc =>
    (rangeEnd_byte h hr hc).trans (rangeByte_of_not_inIntervals (not_inIntervals_of_reversed hrev r c))⟩

/-! ### The mask before the command -/

/-- The mask shares no byte with the two planes, so what it held before is not read (R191, 20_memory.md R71). -/
theorem rangeByte_setMem {s : State} {m : Memory} (h : Legal (rangeBuffers s) s)
    (hm : ∀ k, (∀ r < s.rows, ∀ c < s.cols, k ≠ s.dst0Base + r * s.dst0Stride + c) → (s.setMem m).byte k = s.byte k)
    {r c : Nat} (hr : r < s.rows) (hc : c < s.cols) : rangeByte (s.setMem m) r c = rangeByte s r c := by
  have hdst : s.dst0 s.cols ∈ rangeBuffers s := by simp [rangeBuffers]
  have hu : (s.setMem m).srcByte r c = s.srcByte r c := hm _ fun r' hr' c' hc' =>
    (legal_addr_ne _ s h (s.dst0 s.cols) (s.src0 s.cols) hdst rfl (by simp [rangeBuffers])
      (by simp [State.src0, State.dst0]) r' c' hr' hc' r c hr hc).symm
  have hv : (s.setMem m).src1Byte r c = s.src1Byte r c := hm _ fun r' hr' c' hc' =>
    (legal_addr_ne _ s h (s.dst0 s.cols) (s.src1 s.cols) hdst rfl (by simp [rangeBuffers])
      (by simp [State.src1, State.dst0]) r' c' hr' hc' r c hr hc).symm
  simp only [rangeByte, hu, hv, State.setMem_lowU, State.setMem_highU, State.setMem_lowV, State.setMem_highV]

/-- Settles O43: a mask byte has one of two values (`rangeByte_binary`) and does not depend on the mask before
(`rangeByte_setMem`). -/
theorem rangeMaskIsBinary : Obligations.RangeMaskIsBinary := by
  intro s m h hm
  have hlegal : Legal (rangeBuffers (s.setMem m)) (s.setMem m) := h
  refine ⟨rangeEnd s, rangeEnd (s.setMem m), exec_range_of_legal h, exec_range_of_legal hlegal, fun r hr c hc => ?_⟩
  have ht := rangeEnd_byte h hr hc
  have hu := (rangeEnd_byte hlegal hr hc).trans (rangeByte_setMem h hm hr hc)
  exact ⟨(rangeByte_binary s r c).imp ht.trans ht.trans, hu.trans ht.symm⟩

/-! ### Other bounds -/

/-- The state with the four bounds replaced. -/
def State.withBounds (s : State) (lu hu lv hv : Word) : State :=
  (((s.setReg 12 lu).setReg 13 hu).setReg 14 lv).setReg 15 hv

section
variable (s : State) (lu hu lv hv : Word)

@[simp] theorem withBounds_dst0Base : (s.withBounds lu hu lv hv).dst0Base = s.dst0Base := by
  simp [State.withBounds, setReg_dst0Base]
@[simp] theorem withBounds_dst0Stride : (s.withBounds lu hu lv hv).dst0Stride = s.dst0Stride := by
  simp [State.withBounds, setReg_dst0Stride]
@[simp] theorem withBounds_rows : (s.withBounds lu hu lv hv).rows = s.rows := by
  simp [State.withBounds, setReg_rows]
@[simp] theorem withBounds_cols : (s.withBounds lu hu lv hv).cols = s.cols := by
  simp [State.withBounds, setReg_cols]
@[simp] theorem withBounds_srcByte : (s.withBounds lu hu lv hv).srcByte = s.srcByte := by
  simp [State.withBounds, setReg_srcByte]
@[simp] theorem withBounds_src1Byte : (s.withBounds lu hu lv hv).src1Byte = s.src1Byte := by
  simp [State.withBounds, setReg_src1Byte]
@[simp] theorem withBounds_lowU : (s.withBounds lu hu lv hv).lowU = lu.toInt := by
  simp [State.withBounds, State.lowU]
@[simp] theorem withBounds_highU : (s.withBounds lu hu lv hv).highU = hu.toInt := by
  simp [State.withBounds, State.highU]
@[simp] theorem withBounds_lowV : (s.withBounds lu hu lv hv).lowV = lv.toInt := by
  simp [State.withBounds, State.lowV]
@[simp] theorem withBounds_highV : (s.withBounds lu hu lv hv).highV = hv.toInt := by
  simp [State.withBounds, State.highV]

theorem rangeBuffers_withBounds : rangeBuffers (s.withBounds lu hu lv hv) = rangeBuffers s := by
  simp [rangeBuffers, State.src0, State.src1, State.dst0, State.withBounds, setReg_src0Base, setReg_src0Stride,
    setReg_src1Base, setReg_src1Stride, setReg_dst0Base, setReg_dst0Stride, setReg_rows, setReg_cols]

end

section
variable {s : State} {lu hu lv hv : Word}

/-- The tests of `RANGE` do not read the bounds (R193, R196). -/
theorem legal_range_withBounds (h : Legal (rangeBuffers s) s) :
    Legal (rangeBuffers (s.withBounds lu hu lv hv)) (s.withBounds lu hu lv hv) := by
  rw [← validateWith_eq_none_iff] at h ⊢
  exact (validateWith_congr (rangeBuffers_withBounds s lu hu lv hv) (withBounds_rows s lu hu lv hv)
    (withBounds_cols s lu hu lv hv) rfl).trans h

theorem rangeEnd_withBounds_byte (h : Legal (rangeBuffers s) s) {r c : Nat} (hr : r < s.rows) (hc : c < s.cols) :
    (rangeEnd (s.withBounds lu hu lv hv)).byte (s.dst0Base + r * s.dst0Stride + c) =
      rangeByte (s.withBounds lu hu lv hv) r c := by
  have hbyte := rangeEnd_byte (legal_range_withBounds (lu := lu) (hu := hu) (lv := lv) (hv := hv) h) (r := r) (c := c)
  simp only [withBounds_rows, withBounds_cols, withBounds_dst0Base, withBounds_dst0Stride] at hbyte
  exact hbyte hr hc

/-- An element in both intervals is in wider ones (R198 a). -/
theorem InIntervals.widen {r c : Nat} (h : InIntervals s r c) (hlowU : lu.toInt ≤ s.lowU) (hhighU : s.highU ≤ hu.toInt)
    (hlowV : lv.toInt ≤ s.lowV) (hhighV : s.highV ≤ hv.toInt) : InIntervals (s.withBounds lu hu lv hv) r c := by
  obtain ⟨hulow, huhigh, hvlow, hvhigh⟩ := h
  simp only [InIntervals, withBounds_srcByte, withBounds_src1Byte, withBounds_lowU, withBounds_highU, withBounds_lowV,
    withBounds_highV]
  exact ⟨hlowU.trans hulow, huhigh.trans hhighU, hlowV.trans hvlow, hvhigh.trans hhighV⟩

end

/-- Settles O41: a 255 says that its element is in both intervals, and so in the wider ones (`InIntervals.widen`). -/
theorem rangeMonotoneInBounds : Obligations.RangeMonotoneInBounds := by
  intro s lu hu lv hv h hlowU hhighU hlowV hhighV
  refine ⟨rangeEnd s, rangeEnd (s.withBounds lu hu lv hv), exec_range_of_legal h,
    exec_range_of_legal (legal_range_withBounds h), fun r hr c hc h255 => ?_⟩
  have hin := inIntervals_of_rangeByte ((rangeEnd_byte h hr hc).symm.trans h255)
  exact (rangeEnd_withBounds_byte h hr hc).trans (rangeByte_of_inIntervals (hin.widen hlowU hhighU hlowV hhighV))

/-! ### The exchange of the two channels -/

/-- The planes and the bounds of the two channels exchanged. -/
def State.swapChannels (s : State) : State :=
  { s with x := #v[s.x[2], s.x[3], s.x[0], s.x[1], s.x[4], s.x[5], s.x[6], s.x[7], s.x[8], s.x[9], s.x[10], s.x[11],
      s.x[14], s.x[15], s.x[12], s.x[13]] }

/-- The buffers of the exchange: the regions of `SRC0` and `SRC1` change places, `DST0` stays. -/
theorem rangeBuffers_swapChannels (s : State) : rangeBuffers s.swapChannels =
    [{ s.src1 s.cols with name := .src0 }, { s.src0 s.cols with name := .src1 }, s.dst0 s.cols] := rfl

/-- Each plane is tested as before, and the mask against each, under the other plane's name (R196). -/
theorem legal_swapChannels {s : State} (h : Legal (rangeBuffers s) s) :
    Legal (rangeBuffers s.swapChannels) s.swapChannels := by
  rw [rangeBuffers_swapChannels]
  simp only [Legal, rangeBuffers, List.forall_mem_cons, State.src0, State.src1, State.dst0, reduceCtorEq, ne_eq,
    not_true, not_false_eq_true, true_imp_iff, List.not_mem_nil, IsEmpty.forall_iff, implies_true, true_and, and_true]
    at h ⊢
  obtain ⟨hrows, hcols, ⟨hsrc0, hsrc1, hdst⟩, hmeet0, hmeet1⟩ := h
  exact ⟨hrows, hcols, ⟨hsrc1, hsrc0, hdst⟩, hmeet1, hmeet0⟩

/-- The AND of the two channels does not depend on their order (R191, R198 d). -/
theorem rangeByte_swapChannels (s : State) : rangeByte s.swapChannels = rangeByte s :=
  funext₂ fun r c => BitVec.and_comm (channelMask s.lowV s.highV (s.src1Byte r c))
    (channelMask s.lowU s.highU (s.srcByte r c))

theorem rangeEnd_swapChannels_mem (s : State) : (rangeEnd s.swapChannels).mem = (rangeEnd s).mem :=
  congrArg (fun f => s.mem.writeRows s.dst0Base s.dst0Stride (imageOf s.rows s.cols f)) (rangeByte_swapChannels s)

/-- Settles O42: the same image is written to the same buffer (`rangeEnd_swapChannels_mem`). -/
theorem rangeSymmetricInChannels : Obligations.RangeSymmetricInChannels := fun s h =>
  ⟨rangeEnd s, rangeEnd s.swapChannels, exec_range_of_legal h, exec_range_of_legal (legal_swapChannels h), rfl,
    rangeEnd_swapChannels_mem s⟩

end Sys2Proof.Machine
end

section
/-! The system family: `WR` and `RD` by offset, accesses on the host's bus by address, and `NOP` (44_system.md). -/

namespace Sys2Proof

/-! ### What an access on the bus decodes to (44_system.md R213) -/

/-- Some byte of the access lies in the window, the 128 bytes from `REG_BASE` (10_state.md R30; log 6, 17). -/
def TouchesWindow (cfg : Config) (a : BusAccess) : Prop :=
  cfg.regBase.toNat < a.addr.toNat + a.bytes * a.beats ∧ a.addr.toNat < cfg.regBase.toNat + 128

/-- One 32-bit access at a multiple of 4 from `REG_BASE` (44_system.md R213). -/
def IsWindowWord (cfg : Config) (a : BusAccess) : Prop :=
  a.bytes = 4 ∧ a.beats = 1 ∧ cfg.regBase.toNat ≤ a.addr.toNat ∧ (a.addr.toNat - cfg.regBase.toNat) % 4 = 0

theorem not_bit7_of_lt {off : BitVec 8} (hlt : off.toNat < 0x80) : ¬off.getLsbD 7 = true := by
  rw [offset_bit7]
  simpa using hlt

theorem accessAt_of_unaligned {off : BitVec 8} (hlt : off.toNat < 0x80) (hlow : off.toNat % 4 ≠ 0) (isWrite : Bool)
    (data : Word) : accessAt isWrite off data = .error .windowAccessNoMeaning := by
  rw [accessAt, if_neg (not_bit7_of_lt hlt), if_neg (mt (offset_low off).1 hlow)]

theorem decodeAccess_of_not_touches {cfg : Config} {a : BusAccess} (h : ¬TouchesWindow cfg a) :
    decodeAccess cfg a = .error .outsideWindow := by
  unfold TouchesWindow at h
  exact if_pos (by omega)

section
variable {cfg : Config} {a : BusAccess} (h : TouchesWindow cfg a)
include h

/-- An access that touches the window and is one 32-bit access not before it is the access of its offset. -/
theorem decodeAccess_of_touches : decodeAccess cfg a =
    if a.bytes = 4 ∧ a.beats = 1 ∧ cfg.regBase.toNat ≤ a.addr.toNat then
      accessAt a.write (BitVec.ofNat 8 (a.addr.toNat - cfg.regBase.toNat)) a.data
    else .error .windowAccessNoMeaning := by
  obtain ⟨hlo, hhi⟩ := h
  exact if_neg (by omega)

/-- The offset field holds the distance from `REG_BASE`: it is below 128, so nothing is cut off. -/
theorem toNat_busOffset : (BitVec.ofNat 8 (a.addr.toNat - cfg.regBase.toNat)).toNat =
    a.addr.toNat - cfg.regBase.toNat := by
  obtain ⟨-, hhi⟩ := h
  rw [BitVec.toNat_ofNat]
  omega

theorem decodeAccess_of_not_windowWord (hw : ¬IsWindowWord cfg a) :
    decodeAccess cfg a = .error .windowAccessNoMeaning := by
  rw [decodeAccess_of_touches h]
  split
  · next hword =>
    obtain ⟨hbytes, hbeats, hbase⟩ := hword
    obtain ⟨-, hhi⟩ := id h
    have hlow : (a.addr.toNat - cfg.regBase.toNat) % 4 ≠ 0 := fun hlow => hw ⟨hbytes, hbeats, hbase, hlow⟩
    rw [← toNat_busOffset h] at hlow
    exact accessAt_of_unaligned (by rw [toNat_busOffset h]; omega) hlow _ _
  · rfl

theorem decodeAccess_of_windowWord (hw : IsWindowWord cfg a) : decodeAccess cfg a =
    .ok (if a.write then .wr (BitVec.ofNat 8 (a.addr.toNat - cfg.regBase.toNat)) a.data
      else .rd (BitVec.ofNat 8 (a.addr.toNat - cfg.regBase.toNat))) := by
  obtain ⟨hbytes, hbeats, hbase, hlow⟩ := hw
  obtain ⟨-, hhi⟩ := id h
  rw [decodeAccess_of_touches h, if_pos ⟨hbytes, hbeats, hbase⟩]
  refine accessAt_of_offsetWf ((offsetWf_iff _).2 ?_) _ _
  rw [toNat_busOffset h]
  omega

end

end Sys2Proof

namespace Sys2Proof.Machine

theorem step_of_not_decoded {s : State} {h : HostStep} {rest : List HostStep} {r : DecodeReject}
    (hp : s.pending = h :: rest) (hd : h.decoded s.cfg = some (.error r)) :
    step s = runRejected r (s.setPending rest) := by
  rw [step_cons s h rest hp, hd]
  rfl

/-- Settles O10: the step by what the access decodes to, in the order of `decodeAccess`'s branches. -/
theorem busAccessMeaning : Obligations.BusAccessMeaning := by
  intro s a rest hp base inWindow aligned
  refine ⟨fun hout => ?_, fun hin hmis => ?_, fun hin hal => ?_⟩
  · exact step_of_not_decoded hp (congrArg some (decodeAccess_of_not_touches hout))
  · exact step_of_not_decoded hp (congrArg some (decodeAccess_of_not_windowWord hin hmis))
  · exact step_of_decoded hp (congrArg some (decodeAccess_of_windowWord hin hal))

/-! ### The offsets of the window -/

theorem windowReg_operandOffset (i : Fin 16) : windowReg (operandOffset i) = .operand i := by
  revert i
  decide

theorem eq_operandOffset_of_toNat {off : BitVec 8} {i : Fin 16} (h : off.toNat = 0x40 + 4 * i.val) :
    off = operandOffset i := by
  apply BitVec.eq_of_toNat_eq
  rw [h, operandOffset, BitVec.toNat_ofNat]
  omega

theorem windowReg_eq_operand_iff {off : BitVec 8} (hwf : offsetWf off = true) (i : Fin 16) :
    windowReg off = .operand i ↔ off.toNat = 0x40 + 4 * i.val := by
  refine ⟨toNat_of_windowReg_operand off i hwf, fun h => ?_⟩
  rw [eq_operandOffset_of_toNat h, windowReg_operandOffset]

theorem windowReg_eq_status_iff {off : BitVec 8} (hwf : offsetWf off = true) :
    windowReg off = .status ↔ off = 0x08 :=
  ⟨eq_of_windowReg_status off hwf, fun h => by rw [h]; rfl⟩

/-! ### `WR` by register (44_system.md R211) -/

/-- The bits set in `v[2:0]` are cleared (10_state.md R33): `DONE`, `ERR` and `OVF` one by one. -/
theorem Status.clearedBy_bits (v : Word) (f : Status) :
    (f.clearedBy v).bits = f.bits &&& ~~~(v.extractLsb' 0 3) := by
  apply BitVec.eq_of_getLsbD_eq
  intro i hi
  obtain rfl | rfl | rfl : i = 0 ∨ i = 1 ∨ i = 2 := by omega
  all_goals simp [-BitVec.getLsbD_eq_getElem]

theorem writeWindow_frame {r : WindowReg} (hr : r ≠ .cmd) (val : Word) (s : State) : writeWindow r val s =
    { s with x := (writeWindow r val s).x, status := (writeWindow r val s).status } := by
  cases r with
  | cmd => exact absurd rfl hr
  | id | status | ecause | eval | reserved | operand _ => rfl

theorem writeWindow_bits {r : WindowReg} (hr : r ≠ .cmd) (val : Word) (s : State) :
    (writeWindow r val s).status.bits =
      if r = .status then s.status.bits &&& ~~~(val.extractLsb' 0 3) else s.status.bits := by
  cases r with
  | cmd => exact absurd rfl hr
  | status => exact s.status.clearedBy_bits val
  | id | ecause | eval | reserved | operand _ => rfl

theorem writeWindow_x (r : WindowReg) (val : Word) (s : State) (i : Fin 16) :
    (writeWindow r val s).x[i] = if r = .operand i then val else s.x[i] := by
  split
  · next h =>
    subst h
    exact s.setReg_x_self i val
  · next h =>
    by_contra hne
    exact h (writeWindow_x_cases r val s i hne).1

/-- Settles O11: the effect by register, and the offsets at which each register stands. -/
theorem wrEffectByOffset : Obligations.WrEffectByOffset := by
  intro s off val hle hlow
  have hwf : offsetWf off = true := (offsetWf_iff off).2 ⟨hle, hlow⟩
  refine ⟨fun hoff => by rw [hoff, exec_wr_cmd], fun hoff => ?_⟩
  have hcmd : windowReg off ≠ .cmd := mt (eq_of_windowReg_cmd off hwf) hoff
  refine ⟨writeWindow (windowReg off) val s, execWr_of_wf off val s hle hlow, writeWindow_frame hcmd val s, ?_, ?_⟩
  · simp only [writeWindow_bits hcmd, windowReg_eq_status_iff hwf]
  · simp only [writeWindow_x, windowReg_eq_operand_iff hwf, implies_true]

/-! ### `RD` by offset (44_system.md R212) -/

/-- `STATUS` as a number: `OVF` counts 4, `ERR` 2, `DONE` 1 (10_state.md R33). -/
theorem Status.word_eq (f : Status) :
    f.word = BitVec.ofNat 32 (4 * f.ovf.toNat + 2 * f.err.toNat + f.done.toNat) := by
  obtain ⟨done, err, ovf⟩ := f
  revert done err ovf
  decide

/-- The offsets from 0x14 to 0x3C are reserved (10_state.md R30). -/
theorem windowReg_reserved {off : BitVec 8} (hlow : off.toNat % 4 = 0) (hgt : 0x10 < off.toNat)
    (hlt : off.toNat < 0x40) : windowReg off = .reserved := by
  rw [windowReg_eq off (by omega) hlow]
  simp [hlt, show off.toNat ≠ 0 by omega, show off.toNat ≠ 4 by omega, show off.toNat ≠ 8 by omega,
    show off.toNat ≠ 12 by omega, show off.toNat ≠ 16 by omega]

/-- From 0x40 on stand the operand registers (10_state.md R20). -/
theorem readWindow_of_operand_offset {off : BitVec 8} (hle : off.toNat ≤ 0x7C) (hlow : off.toNat % 4 = 0)
    (hge : 0x40 ≤ off.toNat) (s : State) :
    readWindow (windowReg off) s = (s.x[(off.toNat - 0x40) / 4]?).getD 0 := by
  have hi : (off.toNat - 0x40) / 4 < 16 := by omega
  have hreg : windowReg off = .operand ⟨(off.toNat - 0x40) / 4, hi⟩ :=
    (windowReg_eq_operand_iff ((offsetWf_iff off).2 ⟨hle, hlow⟩) _).2 (by dsimp only; omega)
  rw [hreg, readWindow, Vector.getElem?_eq_getElem hi]
  rfl

/-- Settles O12: the word by register, offset by offset. -/
theorem rdReturnsByOffset : Obligations.RdReturnsByOffset := by
  intro s off hle hlow w
  have hread : readWindow (windowReg off) s = w := by
    unfold w
    split_ifs with hid hcmd hstatus hecause heval hreserved
    · rw [hid]; rfl
    · rw [hcmd]; rfl
    · rw [hstatus]; exact s.status.word_eq
    · rw [hecause]
      change (ecauseBits s.ecause).setWidth 32 = _
      rcases s.ecause with _ | _ | _ | _ | _ | _ | _ <;> rfl
    · rw [heval]; rfl
    · rw [windowReg_reserved hlow (by bv_omega) hreserved]; rfl
    · exact readWindow_of_operand_offset hle hlow (Nat.le_of_not_lt hreserved) s
  rw [← hread]
  exact execRd_of_wf off s hle hlow

/-! ### Offsets that are no word of the window (44_system.md R213) -/

theorem execWr_of_unaligned {off : BitVec 8} (hlt : off.toNat < 0x80) (hlow : off.toNat % 4 ≠ 0) (val : Word)
    (s : State) : execWr off val s = .refused .windowAccessNoMeaning := by
  rw [execWr, if_neg (not_bit7_of_lt hlt), if_neg (mt (offset_low off).1 hlow)]

theorem execRd_of_unaligned {off : BitVec 8} (hlt : off.toNat < 0x80) (hlow : off.toNat % 4 ≠ 0) (s : State) :
    execRd off s = .refused .windowAccessNoMeaning := by
  rw [execRd, if_neg (not_bit7_of_lt hlt), if_neg (mt (offset_low off).1 hlow)]

theorem execWr_of_outside {off : BitVec 8} (h : 0x80 ≤ off.toNat) (val : Word) (s : State) :
    execWr off val s = .next s := by
  rw [execWr, offset_bit7, if_pos (decide_eq_true h)]

theorem execRd_of_outside {off : BitVec 8} (h : 0x80 ≤ off.toNat) (s : State) : execRd off s = .next s := by
  rw [execRd, offset_bit7, if_pos (decide_eq_true h)]

/-- Settles O13, by the branches of `execWr` and `execRd` that do not reach a register. -/
theorem accessOffTheWindowWords : Obligations.AccessOffTheWindowWords := fun s _ val =>
  ⟨fun hlt hlow => ⟨execWr_of_unaligned hlt hlow val s, execRd_of_unaligned hlt hlow s⟩,
    fun h => ⟨execWr_of_outside h val s, execRd_of_outside h s⟩⟩

/-! ### `NOP` -/

/-- Settles O14: `NOP` ends completed with memory and `OVF` as they were (`nopCommand_eq`), and a word with a reserved bit
is one of the illegal words of O5. -/
theorem nopOnlyUpdatesStatus : Obligations.NopOnlyUpdatesStatus := fun s =>
  ⟨congrArg Host.Outcome.next (nopCommand_eq s), fun w _ hreserved => (illegalWordsAreRejected s w).1 (.inl hreserved)⟩

end Sys2Proof.Machine
end

section
/-! The host pipeline family: the surface that the host writes after a completed `RANGE` (45_host_pipeline.md). -/

namespace Sys2Proof.Machine

/-! ### Concatenation of pieces of one length -/

section
variable {α β : Type} {f : α → List β} {n : Nat}

theorem length_flatMap_of_uniform {l : List α} (h : ∀ a ∈ l, (f a).length = n) :
    (l.flatMap f).length = l.length * n := by
  simp [List.length_flatMap, List.map_congr_left h]

theorem getElem?_flatMap_of_uniform {l : List α} (h : ∀ a ∈ l, (f a).length = n) (i : Nat) {k : Nat} (hk : k < n) :
    (l.flatMap f)[n * i + k]? = l[i]?.bind fun a => (f a)[k]? := by
  induction l generalizing i with
  | nil => rfl
  | cons a as ih =>
    obtain ⟨ha, has⟩ := List.forall_mem_cons.1 h
    rw [List.flatMap_cons]
    cases i with
    | zero =>
      rw [Nat.mul_zero, Nat.zero_add, List.getElem?_append_left (by rwa [ha])]
      rfl
    | succ i =>
      rw [show n * (i + 1) + k = (f a).length + (n * i + k) by rw [ha, Nat.mul_succ]; omega,
        List.getElem?_append_right (Nat.le_add_right _ _), Nat.add_sub_cancel_left, ih has]
      rfl

end

/-! ### Expansion: pixel, row, surface (R234) -/

@[simp] theorem expandPixel_length (alpha : Nat) (g : Byte) : (expandPixel alpha g).length = 4 := rfl

theorem expandPixel_getElem? (alpha : Nat) (g : Byte) {k : Nat} (hk : k < 4) :
    (expandPixel alpha g)[k]? = some (if k = alpha then 255 else g) := by
  rw [expandPixel, List.getElem?_map, List.getElem?_range hk]
  rfl

theorem expandRow_length (alpha : Nat) (row : List Byte) :
    (row.flatMap (expandPixel alpha)).length = row.length * 4 :=
  length_flatMap_of_uniform fun g _ => expandPixel_length alpha g

theorem expandRow_getElem? (alpha : Nat) (row : List Byte) (x : Nat) {k : Nat} (hk : k < 4) :
    (row.flatMap (expandPixel alpha))[4 * x + k]? = row[x]?.map fun g => if k = alpha then 255 else g := by
  rw [getElem?_flatMap_of_uniform (fun g _ => expandPixel_length alpha g) x hk]
  simp only [expandPixel_getElem? alpha _ hk, Option.map_eq_bind, Function.comp_def]

section
variable (alpha nrows ncols : Nat) (f : Nat → Nat → Byte)

theorem expandRow_length_of_mem_imageOf (row : List Byte) (h : row ∈ imageOf nrows ncols f) :
    (row.flatMap (expandPixel alpha)).length = 4 * ncols := by
  rw [expandRow_length, imageOf_row_length _ _ _ _ h, Nat.mul_comm]

theorem expandSurface_imageOf_length : (expandSurface alpha (imageOf nrows ncols f)).length = 4 * (nrows * ncols) := by
  rw [expandSurface, length_flatMap_of_uniform (expandRow_length_of_mem_imageOf alpha nrows ncols f), imageOf_length,
    Nat.mul_left_comm]

theorem expandSurface_imageOf_getElem? {y x k : Nat} (hy : y < nrows) (hx : x < ncols) (hk : k < 4) :
    (expandSurface alpha (imageOf nrows ncols f))[4 * (y * ncols + x) + k]? =
      some (if k = alpha then 255 else f y x) := by
  have hoff : 4 * (y * ncols + x) + k = 4 * ncols * y + (4 * x + k) := by ring
  have hin : 4 * x + k < 4 * ncols := by omega
  rw [hoff, expandSurface, getElem?_flatMap_of_uniform (expandRow_length_of_mem_imageOf alpha nrows ncols f) y hin,
    List.getElem?_eq_getElem (by simpa using hy), imageOf_getElem, Option.bind_some, expandRow_getElem? alpha _ x hk,
    List.getElem?_map, List.getElem?_range hx]
  rfl

end

/-- Settles O55: `rescale` is the image of `rescaleByte` (R233), so the surface is that image expanded (R234). -/
theorem hostSurfaceIsExpandedNearest : Obligations.HostSurfaceIsExpandedNearest := fun alpha R C m =>
  ⟨expandSurface_imageOf_length alpha (2 * R) (2 * C) (rescaleByte m),
    fun _ hy _ hx _ hk => expandSurface_imageOf_getElem? alpha (2 * R) (2 * C) (rescaleByte m) hy hx hk⟩

end Sys2Proof.Machine
end

section
/-! The exceptions family: the two ends of an issue, the return from an error, and what stops the machine
(60_exceptions.md). -/

namespace Sys2Proof.Machine

/-! ### The two ends of an issue -/

/-- Whatever is issued, it ends rejected or completed (60_exceptions.md R250, R251). -/
theorem issueWord_rejected_or_completed (w : Word) (s : State) :
    (∃ e info, issueWord w s = s.rejected w e info) ∨ ∃ m o, issueWord w s = s.completed w m o := by
  rcases issueWord_cases w s with ⟨-, h⟩ | ⟨-, ⟨e, info, -, h⟩ | h⟩
  · exact .inl ⟨_, _, h⟩
  · exact .inl ⟨e, info, h⟩
  · exact .inr h

/-- `ERR` after an issue says that it ended rejected. -/
theorem eq_rejected_of_err {w : Word} {s t : State} (hx : exec (.wr 0x04 w) s = .next t) (herr : t.status.err = true) :
    ∃ e info, t = s.rejected w e info := by
  rw [exec_wr_cmd] at hx
  cases hx
  rcases issueWord_rejected_or_completed w s with h | ⟨m, o, h⟩
  · exact h
  · simp [h] at herr

/-- Settles O15: the frame is `issueWord_frame`, and the flags are read off the two ends. -/
theorem everyIssueEnds : Obligations.EveryIssueEnds := by
  intro s w
  refine ⟨issueWord w s, exec_wr_cmd w s, issueWord_frame w s, ?_⟩
  rcases issueWord_rejected_or_completed w s with ⟨e, info, h⟩ | ⟨m, o, h⟩ <;> simp [h]

/-- Settles O16: a rejected end is the state before with `CMD`, `DONE`, `ERR`, `ECAUSE` and `EVAL` written. -/
theorem rejectedCommandChangesNothingElse : Obligations.RejectedCommandChangesNothingElse := by
  intro s t w hx herr
  obtain ⟨e, info, rfl⟩ := eq_rejected_of_err hx herr
  exact ⟨e, rfl, rfl⟩

/-! ### The return from an error (R258) -/

/-- Step 1 of R250 overwrites everything that a rejection wrote. -/
theorem beginCommand_rejected (s : State) (w w' : Word) (e : CmdError) (info : Word) :
    (s.rejected w e info).beginCommand w' = s.beginCommand w' := rfl

theorem setReg_rejected (s : State) (w : Word) (e : CmdError) (info : Word) (i : Fin 16) (v : Word) :
    (s.rejected w e info).setReg i v = (s.setReg i v).rejected w e info := rfl

/-- An issue sees the state only as step 1 of R250 leaves it. -/
theorem runCommand_congr {w : Word} {s t : State} (h : t.beginCommand w = s.beginCommand w)
    (validate : State → Option Rejection) (body : State → State) :
    runCommand w validate body t = runCommand w validate body s := by
  rw [runCommand, h, runCommand]

theorem rejectWord_congr {w : Word} {s t : State} (h : t.beginCommand w = s.beginCommand w) :
    rejectWord w t = rejectWord w s := by
  rw [rejectWord, h, rejectWord]

theorem issueWord_congr {s t : State} (h : ∀ w, t.beginCommand w = s.beginCommand w) (w : Word) :
    issueWord w t = issueWord w s := by
  unfold issueWord
  cases opcodeOf w with
  | none => exact rejectWord_congr (h w)
  | some op => cases op <;> exact runCommand_congr (h _) _ _

theorem issueWord_after_rejected (s : State) (w w' : Word) (e : CmdError) (info : Word) :
    issueWord w' (s.rejected w e info) = issueWord w' s :=
  issueWord_congr (fun w' => beginCommand_rejected s w w' e info) w'

/-- Writing 2 to `STATUS` clears bit 1, which is `ERR`, and no other (10_state.md R33). -/
theorem Status.clearedBy_two (f : Status) : f.clearedBy 2 = { f with err := false } := by
  simp [Status.clearedBy]

theorem exec_wr_status (v : Word) (s : State) :
    exec (.wr 0x08 v) s = .next (s.setStatus (s.status.clearedBy v)) := rfl

/-- Settles O21: the rejected state differs from the one before only in what step 1 of the next issue overwrites. -/
theorem correctedCommandRunsAsIfFirst : Obligations.CorrectedCommandRunsAsIfFirst := by
  intro s t w hx herr
  obtain ⟨e, info, rfl⟩ := eq_rejected_of_err hx herr
  refine ⟨fun w' i v => ?_, ?_⟩
  · simp only [exec_wr_cmd, setReg_rejected, issueWord_after_rejected, and_self]
  · rw [exec_wr_status, Status.clearedBy_two]
    rfl

/-! ### What stops the machine -/

theorem hostMemRead_fault {a : Word} {width : Width} {s : State} {f : Fault} (h : hostMemRead a width s = .fault f) :
    s.cfg.memSize < a.toNat + width.bytes := by
  unfold hostMemRead at h
  split at h
  · cases h
  · next habsent => exact Nat.not_le.1 habsent

theorem hostMemWrite_fault {a v : Word} {width : Width} {s : State} {f : Fault}
    (h : hostMemWrite a width v s = .fault f) : s.cfg.memSize < a.toNat + width.bytes := by
  unfold hostMemWrite at h
  split at h
  · cases h
  · next habsent => exact Nat.not_le.1 habsent

/-- Of the host's own steps only an access to an absent data-memory address faults (20_memory.md R60; log 10). -/
theorem runHostStep_fault {x : HostStep} {s : State} {f : Fault} (h : runHostStep x s = .fault f) :
    (∃ a width, x = .memRead a width ∧ s.cfg.memSize < a.toNat + width.bytes) ∨
      ∃ a width v, x = .memWrite a width v ∧ s.cfg.memSize < a.toNat + width.bytes := by
  cases x with
  | memRead a width => exact .inl ⟨a, width, rfl, hostMemRead_fault h⟩
  | memWrite a width v => exact .inr ⟨a, width, v, rfl, hostMemWrite_fault h⟩
  | word | bus | rst | powerCycle => cases h

/-- None of the host's own steps is refused. -/
theorem runHostStep_ne_refused (x : HostStep) (s : State) (r : Refusal) : runHostStep x s ≠ .refused r := by
  intro h
  cases x with
  | memRead a width =>
    simp only [runHostStep, hostMemRead] at h
    split at h <;> cases h
  | memWrite a width v =>
    simp only [runHostStep, hostMemWrite] at h
    split at h <;> cases h
  | word | bus | rst | powerCycle => cases h

theorem runDecoded_ne_fault (d : Except DecodeReject Instr) (s : State) (f : Fault) : runDecoded d s ≠ .fault f := by
  cases d with
  | ok i => exact exec_not_fault i s f
  | error r => cases r <;> simp [runDecoded, runRejected]

/-- What the host's statements and bus accesses decode to is well formed (30_encoding.md R96). -/
theorem wf_of_decoded {x : HostStep} {cfg : Config} {i : Instr} (h : x.decoded cfg = some (.ok i)) : i.wf = true := by
  cases x with
  | word hw => exact wf_of_decode hw i (Option.some.inj h)
  | bus a => exact wf_of_decodeAccess cfg a i (Option.some.inj h)
  | memRead | memWrite | rst | powerCycle => cases h

/-- A well-formed instruction is not refused, and of the other bits only an access with no meaning is (44_system.md
R213; log 7). -/
theorem runDecoded_refused {d : Except DecodeReject Instr} {s : State} {r : Refusal}
    (hwf : ∀ i, d = .ok i → i.wf = true) (h : runDecoded d s = .refused r) :
    r = .windowAccessNoMeaning ∧ d = .error .windowAccessNoMeaning := by
  cases d with
  | ok i =>
    obtain ⟨-, hnwf⟩ := refused_of_exec i s r h
    simp [hwf i rfl] at hnwf
  | error e =>
    cases e with
    | windowAccessNoMeaning =>
      cases h
      exact ⟨rfl, rfl⟩
    | illegalCommand | outsideWindow => cases h

theorem step_fault {s : State} {f : Fault} (h : step s = .fault f) :
    ∃ x rest, s.pending = x :: rest ∧ runHostStep x (s.setPending rest) = .fault f := by
  cases hp : s.pending with
  | nil => simp [step_nil s hp] at h
  | cons x rest =>
    rw [step_cons s x rest hp] at h
    split at h
    · exact absurd h (runDecoded_ne_fault _ _ f)
    · exact ⟨x, rest, rfl, h⟩

theorem step_refused {s : State} {r : Refusal} (h : step s = .refused r) :
    ∃ x rest d, s.pending = x :: rest ∧ x.decoded s.cfg = some d ∧ runDecoded d (s.setPending rest) = .refused r := by
  cases hp : s.pending with
  | nil => simp [step_nil s hp] at h
  | cons x rest =>
    rw [step_cons s x rest hp] at h
    split at h
    · next d hd => exact ⟨x, rest, d, rfl, hd, h⟩
    · exact absurd h (runHostStep_ne_refused x _ r)

/-- Settles O53: a fault comes from one of the host's own steps, a refusal from bits that are no instruction. -/
theorem machineStopsOnlyOnHostAccess : Obligations.MachineStopsOnlyOnHostAccess := by
  intro s
  refine ⟨fun f hf => ?_, fun r hr => ?_⟩
  · obtain ⟨x, rest, hp, hx⟩ := step_fault hf
    exact ⟨x, rest, hp, runHostStep_fault (s := s.setPending rest) hx⟩
  · obtain ⟨x, rest, d, hp, hd, hx⟩ := step_refused hr
    obtain ⟨rfl, rfl⟩ := runDecoded_refused (fun i hi => wf_of_decoded (hi ▸ hd)) hx
    exact ⟨rfl, x, rest, hp, hd⟩

end Sys2Proof.Machine
end

section
/-! The reset family: the idle block, `rst`, loss of power, and the commands straight after reset
(70_reset_and_hazards.md). -/

namespace Sys2Proof.Machine

/-! ### The steps without an instruction -/

/-- Settles O9: it is the step of an empty list of host steps. -/
theorem idleBlockDoesNothing : Obligations.IdleBlockDoesNothing := step_nil

theorem step_of_rst {s : State} {rest : List HostStep} (hp : s.pending = .rst :: rest) :
    step s = .next (s.setPending rest).applyRst := step_cons s _ rest hp

theorem step_of_powerCycle {s : State} {rest : List HostStep} (hp : s.pending = .powerCycle :: rest) :
    step s = .next (s.setPending rest).applyPowerCycle := step_cons s _ rest hp

/-- `ID` reads the same in every state (10_state.md R31, 44_system.md R212). -/
theorem exec_rd_id (s : State) : exec (.rd 0x00) s = .next (s.setReadData 0x53445031) :=
  execRd_of_wf 0x00 s (by decide) (by decide)

/-- Settles O48: `rst` writes the values of `State.reset` (`resetStateValues`) and touches neither memory nor `epoch`. -/
theorem rstResetsRegistersKeepsMemory : Obligations.RstResetsRegistersKeepsMemory := by
  intro s rest hp
  obtain ⟨hx, hcmd, hstatus, hecause, heval, -⟩ := resetStateValues
  exact ⟨_, step_of_rst hp, hx, hcmd, hstatus, hecause, heval, exec_rd_id _, rfl, fun _ => rfl⟩

/-- Settles O49: loss of power empties memory, so every byte is the free value of the new `epoch`. -/
theorem powerCycleResetsEverything : Obligations.PowerCycleResetsEverything := fun _ _ hp =>
  ⟨_, step_of_powerCycle hp, rfl, fun _ => rfl⟩

/-! ### Empty buffers -/

theorem Buffer.extent_of_rowbytes {b : Buffer} (h : b.rowbytes = 0) : b.extent = 0 := if_pos (.inr h)

@[simp] theorem src0_extent_zero (s : State) : (s.src0 0).extent = 0 := Buffer.extent_of_rowbytes rfl

@[simp] theorem tab_name (s : State) (d : Direction) : (s.tab d).name = .tab := rfl
@[simp] theorem tab_base (s : State) (d : Direction) : (s.tab d).base = s.tabBase := rfl

/-- Where every buffer but the table is empty, only the geometry and the table are tested (20_memory.md R67, R69 to
R71). -/
theorem legal_of_empty {bufs : List Buffer} {s : State} (hrows : s.rows ≤ 16384) (hcols : s.cols ≤ 16384)
    (hempty : ∀ b ∈ bufs, b.name ≠ .tab → b.rowbytes = 0)
    (htab : ∀ b ∈ bufs, b.name = .tab → b.base % 4 = 0 ∧ b.base + b.extent ≤ s.cfg.memSize) : Legal bufs s := by
  have hextent : ∀ b ∈ bufs, 0 < b.extent → b.name = .tab := fun b hb hpos => by
    by_contra hn
    exact hpos.ne' (Buffer.extent_of_rowbytes (hempty b hb hn))
  refine ⟨hrows, hcols, fun b hb => ⟨fun hn => ?_, fun ht => (htab b hb ht).1, fun hpos => ?_⟩, ?_⟩
  · rw [hempty b hb hn]
    exact Nat.zero_le _
  · exact (htab b hb (hextent b hb hpos)).2
  · rintro b hb - c hc hne ⟨hbpos, hcpos, -⟩
    exact hne ((hextent c hc hcpos).trans (hextent b hb hbpos).symm)

/-! ### No rows: the image commands write nothing (70_reset_and_hazards.md R300) -/

theorem writeRows_imageOf_no_rows {nrows : Nat} (h : nrows = 0) (m : Memory) (a stride ncols : Nat)
    (f : Nat → Nat → Byte) : m.writeRows a stride (imageOf nrows ncols f) = m := by
  subst h
  rfl

section
variable {s : State} (h : s.rows = 0)
include h

theorem deintBody_mem_of_no_rows : (deintBody s).mem = s.mem :=
  (writeRows_imageOf_no_rows h _ _ _ _ _).trans (writeRows_imageOf_no_rows h _ _ _ _ _)

theorem rangeBody_mem_of_no_rows : (rangeBody s).mem = s.mem := writeRows_imageOf_no_rows h _ _ _ _ _

theorem athrBody_mem_of_no_rows : (athrBody s).mem = s.mem := writeRows_imageOf_no_rows h _ _ _ _ _

theorem pixelSum_of_no_rows : pixelSum s 0 s.rows 0 s.cols = 0 := by
  simp [pixelSum, h]

end

/-! ### The state right after reset, whatever the parameters and memory -/

/-- The reset registers with any parameters and any memory: reset writes none (70_reset_and_hazards.md R291, R300). -/
def State.afterReset (cfg : Config) (m : Memory) : State := { State.reset with cfg := cfg, mem := m }

section
variable (cfg : Config) (m : Memory)

@[simp] theorem afterReset_cfg : (State.afterReset cfg m).cfg = cfg := rfl
@[simp] theorem afterReset_mem : (State.afterReset cfg m).mem = m := rfl
@[simp] theorem afterReset_ovf : (State.afterReset cfg m).status.ovf = false := rfl
@[simp] theorem afterReset_rows : (State.afterReset cfg m).rows = 0 := rfl
@[simp] theorem afterReset_cols : (State.afterReset cfg m).cols = 0 := rfl
@[simp] theorem afterReset_src0Base : (State.afterReset cfg m).src0Base = 0 := rfl
@[simp] theorem afterReset_tabBase : (State.afterReset cfg m).tabBase = 0 := rfl

/-- The table of an empty image has the one entry `T[0][0]` (41_integ.md R141). -/
@[simp] theorem afterReset_tab_extent (d : Direction) : ((State.afterReset cfg m).tab d).extent = 4 := by
  simp [tab_extent]

/-! ### Commands without a table -/

theorem exec_deint_afterReset :
    exec .deint (State.afterReset cfg m) = .next ((State.afterReset cfg m).completed 0x00000001 m false) := by
  have hlegal : Legal (deintBuffers (State.afterReset cfg m)) (State.afterReset cfg m) :=
    legal_of_empty (by simp) (by simp) (by simp [deintBuffers, State.src0, State.dst0, State.dst1])
      (by simp [deintBuffers, State.src0, State.dst0, State.dst1])
  refine congrArg Host.Outcome.next ((deintCommand_of_legal _ hlegal).trans ?_)
  rw [deintBody_mem_of_no_rows rfl, afterReset_mem, afterReset_ovf]

theorem exec_range_afterReset :
    exec .range (State.afterReset cfg m) = .next ((State.afterReset cfg m).completed 0x00000005 m false) := by
  have hlegal : Legal (rangeBuffers (State.afterReset cfg m)) (State.afterReset cfg m) :=
    legal_of_empty (by simp) (by simp) (by simp [rangeBuffers, State.src0, State.src1, State.dst0])
      (by simp [rangeBuffers, State.src0, State.src1, State.dst0])
  refine (exec_range_of_legal hlegal).trans (congrArg Host.Outcome.next ?_)
  rw [rangeEnd, rangeBody_mem_of_no_rows rfl, afterReset_mem, afterReset_ovf]

end

/-! ### Commands with a table, where memory holds its one entry -/

section
variable {cfg : Config} (hsize : 4 ≤ cfg.memSize) (m : Memory)
include hsize

/-- The table is in memory and aligned; the image's buffers are empty. -/
theorem legal_binarizer_afterReset (d : Direction) :
    Legal (binarizerBuffers d (State.afterReset cfg m)) (State.afterReset cfg m) :=
  legal_of_empty (by simp) (by simp) (by simp [binarizerBuffers, State.src0, State.dst0])
    (by simp [binarizerBuffers, State.src0, State.dst0, hsize])

theorem exec_athr_afterReset :
    exec .athr (State.afterReset cfg m) = .next ((State.afterReset cfg m).completed 0x00000003 m false) := by
  refine (exec_athr_of_legal (legal_binarizer_afterReset hsize m .input)).trans (congrArg Host.Outcome.next ?_)
  rw [athrEnd, athrBody_mem_of_no_rows rfl, afterReset_mem, afterReset_ovf]

/-- `INTEG` completes with its table in memory, and the empty image has total 0 (41_integ.md R146). -/
theorem exec_integ_afterReset : exec .integ (State.afterReset cfg m) =
    .next ((State.afterReset cfg m).completed 0x00000002 (integWrites (State.afterReset cfg m)) false) := by
  have hlegal := legal_integ_of_adapt _ (legal_binarizer_afterReset hsize m .output)
  refine (exec_integ_of_legal hlegal).trans (congrArg Host.Outcome.next ?_)
  rw [integEnd, pixelSum_of_no_rows rfl, afterReset_ovf]
  rfl

/-- `ADAPT` leaves the memory that `INTEG` leaves: its second phase has no row to write (42_athr.md R170). -/
theorem exec_adapt_afterReset : exec .adapt (State.afterReset cfg m) =
    .next ((State.afterReset cfg m).completed 0x00000004 (integWrites (State.afterReset cfg m)) false) := by
  refine (exec_adapt_of_legal (legal_binarizer_afterReset hsize m .output)).trans (congrArg Host.Outcome.next ?_)
  rw [adaptEnd, athrBody_mem_of_no_rows rfl, pixelSum_of_no_rows rfl, afterReset_ovf]
  rfl

end

section
variable {cfg : Config} {m : Memory} {t : State} (ht : t.mem = integWrites (State.afterReset cfg m))
include ht

/-- The one entry of the empty image's table is 0 and stands at address 0 (41_integ.md R141, R142). -/
theorem word_zero_of_integ_afterReset : t.word 0 = 0 := by
  have hentry := integWrites_word _ t ht 0 0 (Nat.zero_le _) (Nat.zero_le _)
  simpa [State.taddr, pixelSum] using hentry

/-- The table of the empty image ends at address 4. -/
theorem byte_of_integ_afterReset (he : t.epoch = (State.afterReset cfg m).epoch) {k : Nat} (hk : 4 ≤ k) :
    t.byte k = (State.afterReset cfg m).byte k := by
  refine byte_eq_of_get? _ t k he ?_
  rw [ht]
  exact integWrites_get?_of_outside _ k (.inr (by simpa using hk))

end

/-! ### Commands with a table, where memory is smaller than its one entry -/

/-- A command whose first failed operand test is `r` ends rejected with it (60_exceptions.md R251). -/
theorem exec_of_rejection {i : Instr} {s : State} {r : Rejection} (hc : isCommand i = true)
    (h : operandTests i s = some r) : exec i s = .next (s.rejected (commandWord i) r.error r.info) :=
  (exec_command i s hc).trans (congrArg Host.Outcome.next (commandEnd_of_rejection h))

section
variable {cfg : Config} (hsize : cfg.memSize < 4) (m : Memory)
include hsize

theorem validateWith_integ_afterReset : validateWith integBuffers (State.afterReset cfg m) = some ⟨.bus, 8⟩ := by
  rw [validateWith_integBuffers]
  simp [beyondMemory, hsize]

theorem validateWith_binarizer_afterReset (d : Direction) :
    validateWith (binarizerBuffers d) (State.afterReset cfg m) = some ⟨.bus, 8⟩ := by
  rw [validateWith_binarizerBuffers]
  simp [beyondMemory, hsize]

end

/-- Settles O50: the image is empty, and the table has one entry, which memory holds or does not. -/
theorem commandsStraightAfterReset : Obligations.CommandsStraightAfterReset := by
  intro cfg m s
  refine ⟨exec_deint_afterReset cfg m, exec_range_afterReset cfg m, fun hsize => ?_, fun hsize => ?_⟩
  · have hmem : (s.completed 0x00000002 (integWrites s) false).mem = integWrites (State.afterReset cfg m) := rfl
    exact ⟨exec_athr_afterReset hsize m, _, _, exec_integ_afterReset hsize m, exec_adapt_afterReset hsize m, rfl, rfl,
      word_zero_of_integ_afterReset hmem, fun _ hk => byte_of_integ_afterReset hmem rfl hk⟩
  · exact ⟨exec_of_rejection (i := .athr) rfl (validateWith_binarizer_afterReset hsize m .input),
      exec_of_rejection (i := .integ) rfl (validateWith_integ_afterReset hsize m),
      exec_of_rejection (i := .adapt) rfl (validateWith_binarizer_afterReset hsize m .output)⟩

end Sys2Proof.Machine
end
